-- ==== Sys2Proof/Word.lean ====
section
/-! DEFINITION. The words of the block: bytes, and the 32-bit data words of its bus (spec/00_scope.md R5). -/

namespace Sys2Proof

/-- One byte lane of the bus (spec/20_memory.md R50), and the width of `INT_BITS` and `DEN_BITS` (R5). -/
abbrev Byte := BitVec 8

/-- One 32-bit register or bus data word (spec/00_scope.md R5). -/
abbrev Word := BitVec 32

end Sys2Proof
end

