-- ==== Sys2Proof/Config.lean ====
section
/-! DEFINITION. What an implementation fixes: the three parameters of spec/00_scope.md R5, and the free
values the spec leaves unspecified (10_state.md R43, 70_reset_and_hazards.md R230). -/

namespace Sys2Proof

/-- `P_CARRY_RULE` (R5): which carry threshold step 4 of the solve uses. -/
inductive CarryRule where
  /-- `(D_max - 1) / D_max`, the normative rule and the default (42_solver.md R157). -/
  | doc
  /-- `(2 D_max - 1) / (2 D_max)`, the observed constants (42_solver.md R157, R179). -/
  | observed
  deriving DecidableEq, Repr

/-- The implementation parameters of spec/00_scope.md R5. They are fixed for the life of the block. -/
structure Params where
  /-- `P_BASE_ADDR`: the byte address of the register window. OPEN in the spec. -/
  baseAddr : Nat
  /-- `P_DEN_BITS_MAX`: the maximum legal `DEN_BITS`. -/
  denBitsMax : Nat
  /-- `P_CARRY_RULE`. -/
  carryRule : CarryRule
  deriving DecidableEq, Repr

/-- The values R5 takes by default. `P_BASE_ADDR` has none: 0 is the model's own choice
(DESIGN CHOICE, log entry 8), and no statement rests on it. -/
def Params.default : Params where
  baseAddr := 0
  denBitsMax := 6
  carryRule := .doc

/-- Free 32-bit values: what the spec calls unspecified (R43, R230). Nothing constrains them. -/
opaque Config.freeWord : Nat → Word

/-- Free 8-bit values, as `Config.freeWord`. -/
opaque Config.freeByte : Nat → Byte

end Sys2Proof
end

