-- ==== Sys2Proof/Machine/Bus.lean ====
section
/-! DEFINITION. The raw bus access of a master, before decoding (spec/20_memory.md R52, R53), and the
register selectors of the window (10_state.md R22, 30_encoding.md R72). -/

namespace Sys2Proof

/-- The direction of a bus access, with the data word of a write. A write of another size than 4 bytes
faults whatever its data (R53), so 32 bits of data are all the block can use. -/
inductive AccessKind where
  | read
  | write (data : Word)
  deriving DecidableEq, Repr

/-- The key bit `W` (30_encoding.md R71): 1 for a write. -/
def AccessKind.isWrite : AccessKind → Bool
  | .read => false
  | .write _ => true

/-- The data word of the access; a read carries none, and its data is never used. -/
def AccessKind.data : AccessKind → Word
  | .read => 0#32
  | .write v => v

/-- One bus access as a master performs it: a byte address of the platform's address space, a size in
bytes and a direction (20_memory.md R53: `addr`, `size`, `is_write`). -/
structure Access where
  addr : Nat
  size : Nat
  kind : AccessKind
  deriving DecidableEq, Repr

/-- `addr - P_BASE_ADDR`, exact (R53). -/
def Access.offset (p : Params) (a : Access) : Int := (a.addr : Int) - (p.baseAddr : Int)

/-- The access is one to the 64-byte window of 10_state.md R22: some byte of it lies in the window
(DESIGN CHOICE, log entry 7; an access of size 0 counts by its address). -/
def Access.touchesWindow (p : Params) (a : Access) : Bool :=
  decide (a.addr < p.baseAddr + 64 ∧ p.baseAddr < a.addr + max a.size 1)

/-- The test of 20_memory.md R53: `size != 4 or (addr - P_BASE_ADDR) mod 4 != 0`. -/
def Access.unsupported (p : Params) (a : Access) : Bool :=
  decide (a.size ≠ 4 ∨ a.offset p % 4 ≠ 0)

/-- The sixteen words of the window, in the order of their offsets (30_encoding.md R72). -/
inductive Reg where
  | srcFreq | tgtFreq | baseDiv | constraints
  | ctrl | status | resInt | resNum
  | resDen | caps | rsvd28 | rsvd2C
  | rsvd30 | rsvd34 | rsvd38 | rsvd3C
  deriving DecidableEq, Repr

/-- `OFF[5:2]` of a register (R72). -/
def Reg.sel : Reg → BitVec 4
  | .srcFreq => 0#4
  | .tgtFreq => 1#4
  | .baseDiv => 2#4
  | .constraints => 3#4
  | .ctrl => 4#4
  | .status => 5#4
  | .resInt => 6#4
  | .resNum => 7#4
  | .resDen => 8#4
  | .caps => 9#4
  | .rsvd28 => 10#4
  | .rsvd2C => 11#4
  | .rsvd30 => 12#4
  | .rsvd34 => 13#4
  | .rsvd38 => 14#4
  | .rsvd3C => 15#4

/-- The register that `OFF[5:2]` selects (R72). -/
def Reg.ofSel (x : BitVec 4) : Reg :=
  match x with
  | 0#4 => .srcFreq
  | 1#4 => .tgtFreq
  | 2#4 => .baseDiv
  | 3#4 => .constraints
  | 4#4 => .ctrl
  | 5#4 => .status
  | 6#4 => .resInt
  | 7#4 => .resNum
  | 8#4 => .resDen
  | 9#4 => .caps
  | 10#4 => .rsvd28
  | 11#4 => .rsvd2C
  | 12#4 => .rsvd30
  | 13#4 => .rsvd34
  | 14#4 => .rsvd38
  | _ => .rsvd3C

/-- The byte offset of a register in the window (10_state.md R22). -/
def Reg.offset (r : Reg) : Nat := 4 * r.sel.toNat

/-- The registers that a write changes: the four inputs (20_memory.md R56). -/
def Reg.isInput : Reg → Bool
  | .srcFreq | .tgtFreq | .baseDiv | .constraints => true
  | .ctrl | .status | .resInt | .resNum | .resDen | .caps => false
  | .rsvd28 | .rsvd2C | .rsvd30 | .rsvd34 | .rsvd38 | .rsvd3C => false

/-- The register an assembler line names (30_encoding.md R81): by name, or by an offset. -/
inductive AsmReg where
  | named (r : Reg)
  | offset (off : Nat)
  deriving DecidableEq, Repr

/-- The assembler's lines and pseudo-instructions (30_encoding.md R81, R82). Values are numbers as
written; `AsmLine.wf` says which may stand. `WAIT_IDLE` is a loop of the master: `polls` is how many
`RD STATUS` one run of that loop makes after its first (log entry 19). -/
inductive AsmLine where
  | rd (r : AsmReg)
  | wr (r : AsmReg) (value : Nat)
  | nop
  | solve
  | clear
  | waitIdle (polls : Nat)
  | solveSync (polls : Nat)
  | config (s t b ib db : Nat)
  deriving DecidableEq, Repr

end Sys2Proof
end

