-- ==== Sys2Proof/Syntax.lean ====
section
/-! DEFINITION. The operations of the block: one constructor per row of spec/opcode_table.json
(30_encoding.md R84): 20 `BUS` rows for the ten registers, 12 `BUS` rows for the reserved offsets, 16 `CMD` rows.

A `BUS` write carries its 32-bit data word `v`.
A `CMD` row is the data word of a write to `CTRL`; its operand `hi` is that word's bits [31:4], which R73 ignores. -/

namespace Sys2Proof

/-- The operations, in the order of spec/opcode_table.json. -/
inductive Instr where
  | rdSrcFreq
  | wrSrcFreq (v : Word)
  | rdTgtFreq
  | wrTgtFreq (v : Word)
  | rdBaseDiv
  | wrBaseDiv (v : Word)
  | rdConstraints
  | wrConstraints (v : Word)
  | rdCtrl
  | wrCtrl (v : Word)
  | rdStatus
  | wrStatus (v : Word)
  | rdResInt
  | wrResInt (v : Word)
  | rdResNum
  | wrResNum (v : Word)
  | rdResDen
  | wrResDen (v : Word)
  | rdCaps
  | wrCaps (v : Word)
  | rdRsvd28
  | wrRsvd28 (v : Word)
  | rdRsvd2C
  | wrRsvd2C (v : Word)
  | rdRsvd30
  | wrRsvd30 (v : Word)
  | rdRsvd34
  | wrRsvd34 (v : Word)
  | rdRsvd38
  | wrRsvd38 (v : Word)
  | rdRsvd3C
  | wrRsvd3C (v : Word)
  | nop (hi : BitVec 28)
  | solve (hi : BitVec 28)
  | clear (hi : BitVec 28)
  | rsvdCmd3 (hi : BitVec 28)
  | rsvdCmd4 (hi : BitVec 28)
  | rsvdCmd5 (hi : BitVec 28)
  | rsvdCmd6 (hi : BitVec 28)
  | rsvdCmd7 (hi : BitVec 28)
  | rsvdCmd8 (hi : BitVec 28)
  | rsvdCmd9 (hi : BitVec 28)
  | rsvdCmdA (hi : BitVec 28)
  | rsvdCmdB (hi : BitVec 28)
  | rsvdCmdC (hi : BitVec 28)
  | rsvdCmdD (hi : BitVec 28)
  | rsvdCmdE (hi : BitVec 28)
  | rsvdCmdF (hi : BitVec 28)
  deriving DecidableEq, Repr

end Sys2Proof
end

