-- ==== Sys2Proof/WellFormed.lean ====
section
/-! DEFINITION. Which terms may stand: legal parameters (00_scope.md R5), supported accesses
(20_memory.md R52) and assembler lines (30_encoding.md R81).

An `Instr` has no ill-formed term: each operand is a bit vector of exactly the width of the field that
carries it (R71: 32 data bits; R73: 28 ignored bits), so no check on it could fail. -/

namespace Sys2Proof

/-- The legal values of R5: `P_BASE_ADDR` any multiple of 64, `P_DEN_BITS_MAX` 1 to 16. -/
def Params.wf (p : Params) : Bool :=
  decide (p.baseAddr % 64 = 0) && decide (1 ≤ p.denBitsMax) && decide (p.denBitsMax ≤ 16)

/-- A supported access (R52): 32 bits, at `P_BASE_ADDR + off` with `off` a multiple of 4 below 64. -/
def Access.supported (p : Params) (a : Access) : Bool :=
  a.touchesWindow p && !a.unsupported p

/-- A register name, or an offset 0x00 to 0x3C that names a register (R81, R72). -/
def AsmReg.wf : AsmReg → Bool
  | .named _ => true
  | .offset off => decide (off % 4 = 0) && decide (off < 64)

/-- A value the assembler may write: 0 to 2^32 - 1 (R81). -/
def asmValueOk (v : Nat) : Bool := decide (v < 2 ^ 32)

/-- The word `CONFIG` writes to `CONSTRAINTS`: `(db << 8) | ib` (R82). -/
def configWord (ib db : Nat) : Nat := (db <<< 8) ||| ib

/-- A line the assembler takes (R81, R82). -/
def AsmLine.wf : AsmLine → Bool
  | .rd r => r.wf
  | .wr r v => r.wf && asmValueOk v
  | .nop => true
  | .solve => true
  | .clear => true
  | .waitIdle _ => true
  | .solveSync _ => true
  | .config s t b ib db =>
    asmValueOk s && asmValueOk t && asmValueOk b && asmValueOk (configWord ib db)

end Sys2Proof
end

