-- ==== Sys2Proof/Decode.lean ====
section
/-! DEFINITION. Decoding and encoding (spec/30_encoding.md).

A bus access is decoded from its size, `OFF[1:0]`, `W` and `OFF[5:2]` (R71, R72, R80) by `decodeAccess`; a
word written to `CTRL` is decoded a second time, by its low four bits (R70, R73, R74), by `decodeCommand`.
`decode` reads the same two formats from bytes, and `encode` writes them. -/

namespace Sys2Proof

/-! ### Byte lanes (20_memory.md R50) -/

/-- Byte lane `k` of a word: bits [8k+7 : 8k] (R50, little-endian). -/
def lane (w : Word) (k : Nat) : Byte := w.extractLsb' (8 * k) 8

/-- The four byte lanes of a word, the lowest address first (R50). -/
def bytesOfWord (w : Word) : List Byte := [lane w 0, lane w 1, lane w 2, lane w 3]

/-- The word whose four byte lanes these are, `b0` at the lowest address (R50). -/
def wordOfBytes (b0 b1 b2 b3 : Byte) : Word := b3 ++ b2 ++ b1 ++ b0

/-! ### The operations by format (30_encoding.md R70) -/

/-- The two formats of R70. -/
inductive Format where
  /-- The 7-bit transaction key, followed by the data word of a write. -/
  | bus
  /-- The 32-bit data word of a write to `CTRL`. -/
  | cmd
  deriving DecidableEq, Repr

/-- An operation by its fields: a `BUS` key and data word (R71), or a `CTRL` data word (R73). -/
inductive Op where
  | read (r : Reg)
  | write (r : Reg) (v : Word)
  | command (code : BitVec 4) (hi : BitVec 28)
  deriving DecidableEq, Repr

/-- The fields of each operation (R72, R74). -/
def Instr.op : Instr → Op
  | .rdSrcFreq => .read .srcFreq
  | .wrSrcFreq v => .write .srcFreq v
  | .rdTgtFreq => .read .tgtFreq
  | .wrTgtFreq v => .write .tgtFreq v
  | .rdBaseDiv => .read .baseDiv
  | .wrBaseDiv v => .write .baseDiv v
  | .rdConstraints => .read .constraints
  | .wrConstraints v => .write .constraints v
  | .rdCtrl => .read .ctrl
  | .wrCtrl v => .write .ctrl v
  | .rdStatus => .read .status
  | .wrStatus v => .write .status v
  | .rdResInt => .read .resInt
  | .wrResInt v => .write .resInt v
  | .rdResNum => .read .resNum
  | .wrResNum v => .write .resNum v
  | .rdResDen => .read .resDen
  | .wrResDen v => .write .resDen v
  | .rdCaps => .read .caps
  | .wrCaps v => .write .caps v
  | .rdRsvd28 => .read .rsvd28
  | .wrRsvd28 v => .write .rsvd28 v
  | .rdRsvd2C => .read .rsvd2C
  | .wrRsvd2C v => .write .rsvd2C v
  | .rdRsvd30 => .read .rsvd30
  | .wrRsvd30 v => .write .rsvd30 v
  | .rdRsvd34 => .read .rsvd34
  | .wrRsvd34 v => .write .rsvd34 v
  | .rdRsvd38 => .read .rsvd38
  | .wrRsvd38 v => .write .rsvd38 v
  | .rdRsvd3C => .read .rsvd3C
  | .wrRsvd3C v => .write .rsvd3C v
  | .nop hi => .command 0#4 hi
  | .solve hi => .command 1#4 hi
  | .clear hi => .command 2#4 hi
  | .rsvdCmd3 hi => .command 3#4 hi
  | .rsvdCmd4 hi => .command 4#4 hi
  | .rsvdCmd5 hi => .command 5#4 hi
  | .rsvdCmd6 hi => .command 6#4 hi
  | .rsvdCmd7 hi => .command 7#4 hi
  | .rsvdCmd8 hi => .command 8#4 hi
  | .rsvdCmd9 hi => .command 9#4 hi
  | .rsvdCmdA hi => .command 10#4 hi
  | .rsvdCmdB hi => .command 11#4 hi
  | .rsvdCmdC hi => .command 12#4 hi
  | .rsvdCmdD hi => .command 13#4 hi
  | .rsvdCmdE hi => .command 14#4 hi
  | .rsvdCmdF hi => .command 15#4 hi

/-- The read of each register (R72, read keys). -/
def readInstr : Reg → Instr
  | .srcFreq => .rdSrcFreq
  | .tgtFreq => .rdTgtFreq
  | .baseDiv => .rdBaseDiv
  | .constraints => .rdConstraints
  | .ctrl => .rdCtrl
  | .status => .rdStatus
  | .resInt => .rdResInt
  | .resNum => .rdResNum
  | .resDen => .rdResDen
  | .caps => .rdCaps
  | .rsvd28 => .rdRsvd28
  | .rsvd2C => .rdRsvd2C
  | .rsvd30 => .rdRsvd30
  | .rsvd34 => .rdRsvd34
  | .rsvd38 => .rdRsvd38
  | .rsvd3C => .rdRsvd3C

/-- The write of each register (R72, write keys). -/
def writeInstr (r : Reg) (v : Word) : Instr :=
  match r with
  | .srcFreq => .wrSrcFreq v
  | .tgtFreq => .wrTgtFreq v
  | .baseDiv => .wrBaseDiv v
  | .constraints => .wrConstraints v
  | .ctrl => .wrCtrl v
  | .status => .wrStatus v
  | .resInt => .wrResInt v
  | .resNum => .wrResNum v
  | .resDen => .wrResDen v
  | .caps => .wrCaps v
  | .rsvd28 => .wrRsvd28 v
  | .rsvd2C => .wrRsvd2C v
  | .rsvd30 => .wrRsvd30 v
  | .rsvd34 => .wrRsvd34 v
  | .rsvd38 => .wrRsvd38 v
  | .rsvd3C => .wrRsvd3C v

/-- The command of each code (R74). -/
def commandInstr (code : BitVec 4) (hi : BitVec 28) : Instr :=
  match code with
  | 0#4 => .nop hi
  | 1#4 => .solve hi
  | 2#4 => .clear hi
  | 3#4 => .rsvdCmd3 hi
  | 4#4 => .rsvdCmd4 hi
  | 5#4 => .rsvdCmd5 hi
  | 6#4 => .rsvdCmd6 hi
  | 7#4 => .rsvdCmd7 hi
  | 8#4 => .rsvdCmd8 hi
  | 9#4 => .rsvdCmd9 hi
  | 10#4 => .rsvdCmdA hi
  | 11#4 => .rsvdCmdB hi
  | 12#4 => .rsvdCmdC hi
  | 13#4 => .rsvdCmdD hi
  | 14#4 => .rsvdCmdE hi
  | _ => .rsvdCmdF hi

/-- The operation with these fields. -/
def Op.instr : Op → Instr
  | .read r => readInstr r
  | .write r v => writeInstr r v
  | .command code hi => commandInstr code hi

/-- The format of an operation (R70). -/
def Instr.format (i : Instr) : Format :=
  match i.op with
  | .read _ => .bus
  | .write _ _ => .bus
  | .command _ _ => .cmd

/-! ### Decoding -/

/-- Why a word, a byte string or a bus access is no operation. -/
inductive DecodeError where
  /-- A key with `OFF[1:0] ≠ 00` decodes to no operation (R71). -/
  | misalignedOffset (off : BitVec 6)
  /-- The first byte is above 0x7F: a key has 7 bits (R71). -/
  | notAKey (b : Byte)
  /-- The byte string ends before the operation does. -/
  | truncated
  /-- An access to the window of another size than 4 bytes, or misaligned (20_memory.md R53). -/
  | unsupported
  /-- An access to no byte of the window (93_implementation_defined.md I13). -/
  | outsideWindow
  deriving DecidableEq, Repr

/-- A transaction key with its data word (R71, R72, R80): `OFF[1:0]` decides first, then `W` and
`OFF[5:2]`. -/
def decodeKey (key : BitVec 7) (data : Word) : Except DecodeError Instr :=
  if key.extractLsb' 0 2 ≠ 0#2 then .error (.misalignedOffset (key.extractLsb' 0 6))
  else if key.getLsbD 6 then .ok (writeInstr (Reg.ofSel (key.extractLsb' 2 4)) data)
  else .ok (readInstr (Reg.ofSel (key.extractLsb' 2 4)))

/-- A data word written to `CTRL` (R73, R74): bits [3:0] are the command, any bits [31:4] will do. -/
def decodeCommand (w : Word) : Instr := commandInstr (w.extractLsb' 0 4) (w.extractLsb' 4 28)

/-- The transaction key of an access (R71): `W`, then `OFF = addr - P_BASE_ADDR`. -/
def Access.key (p : Params) (a : Access) : BitVec 7 :=
  BitVec.ofBool a.kind.isWrite ++ BitVec.ofInt 6 (a.offset p)

/-- The operation a bus access performs (R80, 20_memory.md R52, R53): the size and the alignment decide
supported or not, then the key decides the operation. -/
def decodeAccess (p : Params) (a : Access) : Except DecodeError Instr :=
  if !a.touchesWindow p then .error .outsideWindow
  else if a.unsupported p then .error .unsupported
  else decodeKey (a.key p) a.kind.data

/-- A byte string in format `BUS`: the key, then for a write the four lanes of its data word. Answers the
operation and the bytes after it. -/
def decodeBus : List Byte → Except DecodeError (Instr × List Byte)
  | [] => .error .truncated
  | k :: rest =>
    if k.getLsbD 7 then .error (.notAKey k)
    else if k.getLsbD 6 then
      match rest with
      | b0 :: b1 :: b2 :: b3 :: rest' =>
        (decodeKey (k.extractLsb' 0 7) (wordOfBytes b0 b1 b2 b3)).map (fun i => (i, rest'))
      | _ => .error .truncated
    else (decodeKey (k.extractLsb' 0 7) 0#32).map (fun i => (i, rest))

/-- A byte string in format `CMD`: the four lanes of the data word of a write to `CTRL`. -/
def decodeCmd : List Byte → Except DecodeError (Instr × List Byte)
  | b0 :: b1 :: b2 :: b3 :: rest => .ok (decodeCommand (wordOfBytes b0 b1 b2 b3), rest)
  | _ => .error .truncated

/-- Decoding, total on any bytes. No mode and no earlier transaction changes it (R80). -/
def decode (f : Format) (bs : List Byte) : Except DecodeError (Instr × List Byte) :=
  match f with
  | .bus => decodeBus bs
  | .cmd => decodeCmd bs

/-! ### Encoding -/

/-- The key of a register's read or write (R71, R72). -/
def busKey (isWrite : Bool) (r : Reg) : BitVec 7 := BitVec.ofBool isWrite ++ r.sel ++ 0#2

/-- The data word that issues a command (R73). -/
def commandWord (code : BitVec 4) (hi : BitVec 28) : Word := hi ++ code

/-- The bytes of an operation in its format. -/
def encode (i : Instr) : List Byte :=
  match i.op with
  | .read r => [0#1 ++ busKey false r]
  | .write r v => (0#1 ++ busKey true r) :: bytesOfWord v
  | .command code hi => bytesOfWord (commandWord code hi)

/-- The bus access that performs an operation: a command is a write to `CTRL` (R70, 41_commands.md). -/
def encodeAccess (p : Params) (i : Instr) : Access :=
  match i.op with
  | .read r => ⟨p.baseAddr + r.offset, 4, .read⟩
  | .write r v => ⟨p.baseAddr + r.offset, 4, .write v⟩
  | .command code hi => ⟨p.baseAddr + Reg.ctrl.offset, 4, .write (commandWord code hi)⟩

/-! ### The opcode table (30_encoding.md R84) -/

/-- One row of spec/opcode_table.json: over the format's bits, `word &&& mask = pattern`. -/
structure TableRow where
  mnemonic : String
  format : Format
  mask : Word
  pattern : Word
  deriving DecidableEq, Repr

/-- The row of each operation, as the table has it. -/
def Instr.row : Instr → TableRow
  | .rdSrcFreq => ⟨"RD_SRC_FREQ", .bus, 0x7F, 0x00⟩
  | .wrSrcFreq _ => ⟨"WR_SRC_FREQ", .bus, 0x7F, 0x40⟩
  | .rdTgtFreq => ⟨"RD_TGT_FREQ", .bus, 0x7F, 0x04⟩
  | .wrTgtFreq _ => ⟨"WR_TGT_FREQ", .bus, 0x7F, 0x44⟩
  | .rdBaseDiv => ⟨"RD_BASE_DIV", .bus, 0x7F, 0x08⟩
  | .wrBaseDiv _ => ⟨"WR_BASE_DIV", .bus, 0x7F, 0x48⟩
  | .rdConstraints => ⟨"RD_CONSTRAINTS", .bus, 0x7F, 0x0C⟩
  | .wrConstraints _ => ⟨"WR_CONSTRAINTS", .bus, 0x7F, 0x4C⟩
  | .rdCtrl => ⟨"RD_CTRL", .bus, 0x7F, 0x10⟩
  | .wrCtrl _ => ⟨"WR_CTRL", .bus, 0x7F, 0x50⟩
  | .rdStatus => ⟨"RD_STATUS", .bus, 0x7F, 0x14⟩
  | .wrStatus _ => ⟨"WR_STATUS", .bus, 0x7F, 0x54⟩
  | .rdResInt => ⟨"RD_RES_INT", .bus, 0x7F, 0x18⟩
  | .wrResInt _ => ⟨"WR_RES_INT", .bus, 0x7F, 0x58⟩
  | .rdResNum => ⟨"RD_RES_NUM", .bus, 0x7F, 0x1C⟩
  | .wrResNum _ => ⟨"WR_RES_NUM", .bus, 0x7F, 0x5C⟩
  | .rdResDen => ⟨"RD_RES_DEN", .bus, 0x7F, 0x20⟩
  | .wrResDen _ => ⟨"WR_RES_DEN", .bus, 0x7F, 0x60⟩
  | .rdCaps => ⟨"RD_CAPS", .bus, 0x7F, 0x24⟩
  | .wrCaps _ => ⟨"WR_CAPS", .bus, 0x7F, 0x64⟩
  | .rdRsvd28 => ⟨"RD_RSVD_28", .bus, 0x7F, 0x28⟩
  | .wrRsvd28 _ => ⟨"WR_RSVD_28", .bus, 0x7F, 0x68⟩
  | .rdRsvd2C => ⟨"RD_RSVD_2C", .bus, 0x7F, 0x2C⟩
  | .wrRsvd2C _ => ⟨"WR_RSVD_2C", .bus, 0x7F, 0x6C⟩
  | .rdRsvd30 => ⟨"RD_RSVD_30", .bus, 0x7F, 0x30⟩
  | .wrRsvd30 _ => ⟨"WR_RSVD_30", .bus, 0x7F, 0x70⟩
  | .rdRsvd34 => ⟨"RD_RSVD_34", .bus, 0x7F, 0x34⟩
  | .wrRsvd34 _ => ⟨"WR_RSVD_34", .bus, 0x7F, 0x74⟩
  | .rdRsvd38 => ⟨"RD_RSVD_38", .bus, 0x7F, 0x38⟩
  | .wrRsvd38 _ => ⟨"WR_RSVD_38", .bus, 0x7F, 0x78⟩
  | .rdRsvd3C => ⟨"RD_RSVD_3C", .bus, 0x7F, 0x3C⟩
  | .wrRsvd3C _ => ⟨"WR_RSVD_3C", .bus, 0x7F, 0x7C⟩
  | .nop _ => ⟨"NOP", .cmd, 0x0000000F, 0x00000000⟩
  | .solve _ => ⟨"SOLVE", .cmd, 0x0000000F, 0x00000001⟩
  | .clear _ => ⟨"CLEAR", .cmd, 0x0000000F, 0x00000002⟩
  | .rsvdCmd3 _ => ⟨"RSVD_CMD_3", .cmd, 0x0000000F, 0x00000003⟩
  | .rsvdCmd4 _ => ⟨"RSVD_CMD_4", .cmd, 0x0000000F, 0x00000004⟩
  | .rsvdCmd5 _ => ⟨"RSVD_CMD_5", .cmd, 0x0000000F, 0x00000005⟩
  | .rsvdCmd6 _ => ⟨"RSVD_CMD_6", .cmd, 0x0000000F, 0x00000006⟩
  | .rsvdCmd7 _ => ⟨"RSVD_CMD_7", .cmd, 0x0000000F, 0x00000007⟩
  | .rsvdCmd8 _ => ⟨"RSVD_CMD_8", .cmd, 0x0000000F, 0x00000008⟩
  | .rsvdCmd9 _ => ⟨"RSVD_CMD_9", .cmd, 0x0000000F, 0x00000009⟩
  | .rsvdCmdA _ => ⟨"RSVD_CMD_A", .cmd, 0x0000000F, 0x0000000A⟩
  | .rsvdCmdB _ => ⟨"RSVD_CMD_B", .cmd, 0x0000000F, 0x0000000B⟩
  | .rsvdCmdC _ => ⟨"RSVD_CMD_C", .cmd, 0x0000000F, 0x0000000C⟩
  | .rsvdCmdD _ => ⟨"RSVD_CMD_D", .cmd, 0x0000000F, 0x0000000D⟩
  | .rsvdCmdE _ => ⟨"RSVD_CMD_E", .cmd, 0x0000000F, 0x0000000E⟩
  | .rsvdCmdF _ => ⟨"RSVD_CMD_F", .cmd, 0x0000000F, 0x0000000F⟩

/-- The bits the table's rows are matched against: the key, or the data word of the write to `CTRL`. -/
def Instr.tableWord (i : Instr) : Word :=
  match i.op with
  | .read r => (busKey false r).zeroExtend 32
  | .write r _ => (busKey true r).zeroExtend 32
  | .command code hi => commandWord code hi

/-- The four low byte lanes of a number, the lowest first. -/
def bytesOfNat (n : Nat) : List Byte := bytesOfWord (BitVec.ofNat 32 n)

/-- Which format a word of the opcode table is read in (log entry 13): 32 bits are a `CTRL` data word;
another width is a key in the first byte with the data word above it. A one-byte word below 16 whose
`OFF[1:0]` is not 00 matches no `BUS` row and one `CMD` row, so it is read as that row. -/
def tableFormat (nbits w : Nat) : Format :=
  if nbits = 32 then .cmd
  else if nbits ≤ 8 ∧ w < 16 ∧ w % 4 ≠ 0 then .cmd
  else .bus

/-- The bytes of a word of the opcode table; every bit above `nbits` is 0. -/
def tableBytes (nbits w : Nat) : List Byte :=
  match tableFormat nbits w with
  | .cmd => bytesOfNat w
  | .bus => BitVec.ofNat 8 w :: bytesOfNat (w / 256)

/-- The operation this decoder reads from a word of the opcode table. -/
def decodeTableWord (nbits w : Nat) : Option Instr :=
  match decode (tableFormat nbits w) (tableBytes nbits w) with
  | .ok (i, _) => some i
  | .error _ => none

/-- The access that performs the operation of a word of the opcode table. For a word that is no operation:
an access at offset 1, which decodes to none either (R71). -/
def tableAccess (p : Params) (nbits w : Nat) : Access :=
  match decodeTableWord nbits w with
  | some i => encodeAccess p i
  | none => ⟨p.baseAddr + 1, 4, .read⟩

end Sys2Proof
end

