-- ==== Sys2Proof/Machine/Block.lean ====
section
/-! DEFINITION. The registers of the block and the engine's snapshot (spec/10_state.md), with their reset
values (R43). What reads as a constant holds no state: `CTRL` (R27), `CAPS` (R38), the reserved bits and the
reserved offsets (R39). -/

namespace Sys2Proof.Machine

/-- The fields of `STATUS` (10_state.md R28). Bits 3, 7 and [31:12] read 0 and are not held. -/
structure Status where
  busy : Bool
  done : Bool
  err : Bool
  errCode : BitVec 3
  path : BitVec 2
  neg : Bool
  intRange : Bool
  deriving DecidableEq, Repr

/-- The engine's copy of the inputs of the solve in progress (10_state.md R40). -/
structure Snapshot where
  srcFreq : Word
  tgtFreq : Word
  baseDiv : Word
  intBits : Byte
  denBits : Byte
  deriving DecidableEq, Repr

/-- Everything the block holds: the input registers (R23 to R26), `STATUS` (R28), the results (R35 to R37)
and the snapshot (R40). -/
structure Block where
  srcFreq : Word
  tgtFreq : Word
  baseDiv : Word
  intBits : Byte
  denBits : Byte
  status : Status
  resInt : Word
  resNum : Word
  resDen : Word
  snap : Snapshot
  deriving DecidableEq, Repr

/-- `STATUS = 0x00000000`: not busy, no result, no error (R43; 41_commands.md R134). -/
def Status.clear : Status :=
  { busy := false, done := false, err := false, errCode := 0#3, path := 0#2, neg := false, intRange := false }

/-- The value the model gives the snapshot in `State.reset`, where R43 says unspecified
(DESIGN CHOICE, log entry 9). -/
def Snapshot.zero : Snapshot :=
  { srcFreq := 0#32, tgtFreq := 0#32, baseDiv := 0#32, intBits := 0#8, denBits := 0#8 }

/-- Every register at its reset value (R43, 70_reset_and_hazards.md R230). The spec leaves the snapshot
unspecified, so it is an argument. -/
def Block.reset (p : Params) (snap : Snapshot) : Block :=
  { srcFreq := 0#32, tgtFreq := 0#32, baseDiv := 0#32
    intBits := 32#8, denBits := BitVec.ofNat 8 p.denBitsMax
    status := Status.clear
    resInt := 0#32, resNum := 0#32, resDen := 1#32
    snap := snap }

end Sys2Proof.Machine
end

