-- ==== Sys2Proof/Machine/Flags.lean ====
section
/-! DEFINITION. The `STATUS` and `CAPS` words (spec/30_encoding.md R76, R77), the path and error codes
(10_state.md R31, 60_exceptions.md R201), and every value a step gives `STATUS`. -/

namespace Sys2Proof.Machine

/-- A flag bit as a number. -/
def bit (b : Bool) : Nat := if b then 1 else 0

/-- The `STATUS` word a bus read returns (R76). -/
def Status.word (s : Status) : Word :=
  BitVec.ofNat 32 (bit s.busy)
    ||| BitVec.ofNat 32 (bit s.done) <<< 1
    ||| BitVec.ofNat 32 (bit s.err) <<< 2
    ||| s.errCode.zeroExtend 32 <<< 4
    ||| s.path.zeroExtend 32 <<< 8
    ||| BitVec.ofNat 32 (bit s.neg) <<< 10
    ||| BitVec.ofNat 32 (bit s.intRange) <<< 11

/-- `CARRY_RULE` of `CAPS` (10_state.md R38). -/
def carryRuleBit : CarryRule → Nat
  | .doc => 0
  | .observed => 1

/-- The `CAPS` word (R77). -/
def capsWord (p : Params) : Word :=
  BitVec.ofNat 32 p.denBitsMax ||| BitVec.ofNat 32 (carryRuleBit p.carryRule) <<< 8

/-- The terminating branch of a successful solve (10_state.md R31). -/
inductive Path where
  | exact
  | carry
  | searchExact
  | searchBest
  deriving DecidableEq, Repr

/-- `STATUS.PATH` of each branch (R31). -/
def Path.code : Path → BitVec 2
  | .exact => 0#2
  | .carry => 1#2
  | .searchExact => 2#2
  | .searchBest => 3#2

/-- Why a solve is rejected (60_exceptions.md R201, codes 1 to 4). -/
inductive SolveError where
  | targetZero
  | sourceZero
  | badConstraints
  | carryOverflow
  deriving DecidableEq, Repr

/-- `STATUS.ERR_CODE` of each (R201). -/
def SolveError.code : SolveError → BitVec 3
  | .targetZero => 1#3
  | .sourceZero => 2#3
  | .badConstraints => 3#3
  | .carryOverflow => 4#3

/-- `BAD_COMMAND` (R201). -/
def badCommandCode : BitVec 3 := 5#3

/-- `STATUS` after an accepted `SOLVE`: 0x00000001 (41_commands.md R132). -/
def Status.solving : Status := { Status.clear with busy := true }

/-- `STATUS` after a completion with a result (41_commands.md R140). -/
def Status.result (path : Path) (neg intRange : Bool) : Status :=
  { busy := false, done := true, err := false, errCode := 0#3, path := path.code, neg := neg, intRange := intRange }

/-- `STATUS` after a completion with an error (41_commands.md R141). -/
def Status.rejected (e : SolveError) : Status :=
  { busy := false, done := false, err := true, errCode := e.code, path := 0#2, neg := false, intRange := false }

/-- `STATUS` after a reserved command: only `ERR` and `ERR_CODE` change (41_commands.md R136). -/
def Status.badCommand (s : Status) : Status := { s with err := true, errCode := badCommandCode }

/-- `NEG` of a solve: `S < T * B`, the product exact (10_state.md R33, 42_solver.md R155). -/
def negFlag (srcFreq tgtFreq baseDiv : Nat) : Bool := decide (srcFreq < tgtFreq * baseDiv)

/-- `INT_RANGE` of a result: `IB < 32 and I >= 2^IB` (10_state.md R34, 42_solver.md R174). -/
def intRangeFlag (intPart intBits : Nat) : Bool := decide (intBits < 32 ∧ 2 ^ intBits ≤ intPart)

end Sys2Proof.Machine
end

