-- ==== Sys2Proof/Machine/Operands.lean ====
section
/-! DEFINITION. Operand assembly (spec/30_encoding.md R75) and the layout of `CONSTRAINTS`
(10_state.md R26). Every value is unsigned and zero-extended to a number. -/

namespace Sys2Proof.Machine

/-- The inputs of a solve as exact numbers (R75, 00_scope.md R11): `S`, `T`, `B`, `IB`, `DB`. -/
structure Inputs where
  /-- `S`, `source_freq`. -/
  srcFreq : Nat
  /-- `T`, `target_freq`. -/
  tgtFreq : Nat
  /-- `B`, `base_integer_divider`. -/
  baseDiv : Nat
  /-- `IB`, `integer_part_bits`. -/
  intBits : Nat
  /-- `DB`, `fraction_denominator_bits`. -/
  denBits : Nat
  deriving DecidableEq, Repr

/-- The operands of R75, read from the snapshot as the completion step reads them (41_commands.md R139). -/
def Snapshot.inputs (s : Snapshot) : Inputs :=
  { srcFreq := s.srcFreq.toNat
    tgtFreq := s.tgtFreq.toNat
    baseDiv := s.baseDiv.toNat
    intBits := s.intBits.toNat
    denBits := s.denBits.toNat }

/-- The copy an accepted `SOLVE` takes of the input registers (10_state.md R40, 41_commands.md R132). -/
def Block.capture (b : Block) : Snapshot :=
  { srcFreq := b.srcFreq
    tgtFreq := b.tgtFreq
    baseDiv := b.baseDiv
    intBits := b.intBits
    denBits := b.denBits }

/-- `INT_BITS` of a word written to `CONSTRAINTS`: bits [7:0] (R26). -/
def intBitsField (v : Word) : Byte := v.extractLsb' 0 8

/-- `DEN_BITS` of a word written to `CONSTRAINTS`: bits [15:8] (R26). -/
def denBitsField (v : Word) : Byte := v.extractLsb' 8 8

/-- `CONSTRAINTS` as a bus read returns it (40_register_access.md R106). -/
def constraintsWord (intBits denBits : Byte) : Word := 0#16 ++ denBits ++ intBits

end Sys2Proof.Machine
end

