-- ==== Sys2Proof/Machine/Solver.lean ====
section
/-! DEFINITION. The pure function `Solve` (spec/42_solver.md R150 to R164, R172, R174), on exact integers
(00_scope.md R11, R12). -/

namespace Sys2Proof.Machine

/-- What a successful solve returns (R172): `I`, `N`, `D`, `PATH`, `NEG`, `INT_RANGE`. -/
structure Divider where
  int : Nat
  num : Nat
  den : Nat
  path : Path
  neg : Bool
  intRange : Bool
  deriving DecidableEq, Repr

/-- What a solve returns (R172). -/
inductive SolveResult where
  | ok (d : Divider)
  | error (e : SolveError)
  deriving DecidableEq, Repr

/-- `D_max = 2^DB - 1` (R154). -/
def dMax (denBits : Nat) : Nat := 2 ^ denBits - 1

/-- `FD = |S - T*B|`, exact (R155). -/
def freqDiff (x : Inputs) : Nat := ((x.srcFreq : Int) - (x.tgtFreq : Int) * (x.baseDiv : Int)).natAbs

/-- The constraints a solve rejects (R152). -/
def badConstraints (p : Params) (x : Inputs) : Bool :=
  decide (x.denBits = 0 ∨ p.denBitsMax < x.denBits ∨ 32 < x.intBits
    ∨ (p.carryRule = .observed ∧ x.denBits = 1))

/-- The carry test of steps 3 and 4, multiplied out; the comparison is strict (R157). -/
def carries (rule : CarryRule) (fd t dmax : Nat) : Bool :=
  match rule with
  | .doc => decide ((dmax - 1) * t < fd * dmax)
  | .observed => decide ((2 * dmax - 1) * t < fd * 2 * dmax)

/-- A candidate of the search: denominator `a`, numerator `b` and distance. -/
structure Candidate where
  den : Nat
  num : Nat
  dist : Nat
  deriving DecidableEq, Repr

/-- `b = (2*a*FD + T) // (2*T)`: `a*FD/T` rounded half up (R160). -/
def roundNum (fd t a : Nat) : Nat := (2 * a * fd + t) / (2 * t)

/-- `|rhs - lhs|` with `lhs = FD*a`, `rhs = T*b` (R161). -/
def crossDist (fd t a b : Nat) : Nat := ((t : Int) * (b : Int) - (fd : Int) * (a : Int)).natAbs

/-- The candidate at denominator `a` (R160, R161). -/
def candidate (fd t a : Nat) : Candidate :=
  { den := a, num := roundNum fd t a, dist := crossDist fd t a (roundNum fd t a) }

/-- Best pair tracking: an equal distance never replaces (R163). -/
def keepBest (best : Option Candidate) (c : Candidate) : Candidate :=
  match best with
  | none => c
  | some b => if c.dist < b.dist then c else b

/-- How the search ends: at the first exact match (R162), or with the best tracked pair (R164). -/
inductive Scan where
  | exact (c : Candidate)
  | best (c : Option Candidate)
  deriving DecidableEq, Repr

/-- The search over the next `n` denominators from `a` up (R159 to R163). -/
def scan (fd t : Nat) : Nat → Nat → Option Candidate → Scan
  | 0, _, best => .best best
  | n + 1, a, best =>
    let c := candidate fd t a
    if fd * c.den = t * c.num then .exact c
    else scan fd t n (a + 1) (some (keepBest best c))

/-- The search over `a = 2, 3, …, D_max` (R159): at most `D_max - 1` candidates (R171). -/
def search (fd t dmax : Nat) : Scan := scan fd t (dmax - 1) 2 none

/-- A result with its flags (R155, R174). -/
def finish (x : Inputs) (int num den : Nat) (path : Path) : SolveResult :=
  .ok { int := int, num := num, den := den, path := path
        neg := negFlag x.srcFreq x.tgtFreq x.baseDiv
        intRange := intRangeFlag int x.intBits }

/-- Steps 5 and 6 (R159 to R164). A search that tracked no pair is never reached (R163, R177): with no pair
there is no result, and the model answers `BAD_CONSTRAINTS` (log entry 15). -/
def searchResult (x : Inputs) : SolveResult :=
  match search (freqDiff x) x.tgtFreq (dMax x.denBits) with
  | .exact c => finish x x.baseDiv c.num c.den .searchExact
  | .best (some c) => finish x x.baseDiv c.num c.den .searchBest
  | .best none => .error .badConstraints

/-- Step 4, the carry (R158). -/
def carryResult (x : Inputs) : SolveResult :=
  if x.baseDiv = 2 ^ 32 - 1 then .error .carryOverflow
  else finish x (x.baseDiv + 1) 0 1 .carry

/-- Steps 2 to 6, on validated inputs (R156 to R164). -/
def divide (p : Params) (x : Inputs) : SolveResult :=
  if freqDiff x = 0 then finish x x.baseDiv 0 1 .exact
  else if carries p.carryRule (freqDiff x) x.tgtFreq (dMax x.denBits) then carryResult x
  else searchResult x

/-- `Solve(S, T, B, IB, DB)` (R172): the checks of R150 to R152 in their order (60_exceptions.md R204), then
the algorithm. -/
def solve (p : Params) (x : Inputs) : SolveResult :=
  if x.tgtFreq = 0 then .error .targetZero
  else if x.srcFreq = 0 then .error .sourceZero
  else if badConstraints p x then .error .badConstraints
  else divide p x

end Sys2Proof.Machine
end

