-- ==== Sys2Proof/Machine/State.lean ====
section
/-! DEFINITION. The state of the machine as plain data, the reasons a step can stop, and the state after
reset.

There is no program counter and no memory (10_state.md R21, R44). Three agents take atomic steps in one total
order (00_scope.md R7, 20_memory.md R59); `State.schedule` says which moves next. -/

namespace Sys2Proof.Machine

/-- Why a step faults. -/
inductive Fault where
  /-- `UNSUPPORTED_ACCESS(addr, size, is_write)` (20_memory.md R53): raised by a bus access to the window of
  another size than 4 bytes, or misaligned. The step changes no register. Safe: the model stops where a real
  bus might split, merge or ignore the access. -/
  | unsupportedAccess (addr size : Nat) (isWrite : Bool)
  deriving DecidableEq, Repr

/-- Why a step is refused. -/
inductive Refusal where
  /-- Raised by `exec` for an operation that has no meaning yet; none is left. Safe: the model stops. -/
  | notModelled (mnemonic : String)
  /-- Raised by a bus access to no byte of the window: it is not the block's, and the platform decides
  (93_implementation_defined.md I13). Safe: the model stops. -/
  | outsideWindow (addr size : Nat)
  deriving DecidableEq, Repr

/-- One entry of the order in which the agents move (00_scope.md R7). -/
inductive Event where
  /-- A bus master performs one access. -/
  | bus (a : Access)
  /-- The solver engine may take its step (41_commands.md R138). -/
  | engine
  /-- The environment resets the block (70_reset_and_hazards.md R230). -/
  | reset
  deriving DecidableEq, Repr

/-- The state. `params`, `block` and `faults` are the spec's; `schedule`, `readData` and `free` are the
model's own. -/
structure State where
  /-- The implementation parameters (R5). No step changes them. -/
  params : Params
  /-- The registers of the block and the snapshot. -/
  block : Block
  /-- Which agent moves next, the head first (log entry 1). -/
  schedule : List Event
  /-- What the last bus read returned to its master (log entry 4). -/
  readData : Option Word
  /-- The record of faulted steps, the oldest first (00_scope.md R8, R230). -/
  faults : List Fault
  /-- How many free values have been drawn (log entry 10). -/
  free : Nat
  deriving DecidableEq, Repr

/-- The machine right after reset with the default parameters (R43, R5): nothing scheduled, nothing read,
no fault recorded. -/
def State.reset : State :=
  { params := Params.default
    block := Block.reset Params.default Snapshot.zero
    schedule := []
    readData := none
    faults := []
    free := 0 }

end Sys2Proof.Machine
end

