-- ==== Sys2Proof/Machine/Ops.lean ====
section
/-! DEFINITION. The operations every meaning is built from: reading and writing the register window
(spec/40_register_access.md), the commands (41_commands.md R130 to R137), the engine's completion
(R139 to R141), reset (70_reset_and_hazards.md R230) and the record of a fault (20_memory.md R53). -/

namespace Sys2Proof.Machine

/-! ### Updates of the state, one field each -/

/-- The state with another block. -/
def State.withBlock (s : State) (b : Block) : State := { s with block := b }

/-- The state with another `STATUS`. -/
def State.withStatus (s : State) (st : Status) : State := s.withBlock { s.block with status := st }

/-- The state with another snapshot. -/
def State.withSnap (s : State) (sn : Snapshot) : State := s.withBlock { s.block with snap := sn }

/-- The state with another result. -/
def State.withResult (s : State) (i n d : Word) : State :=
  s.withBlock { s.block with resInt := i, resNum := n, resDen := d }

/-- The state after a bus read has returned `v` to its master. -/
def State.respond (s : State) (v : Word) : State := { s with readData := some v }

/-- The state with another schedule. -/
def State.withSchedule (s : State) (es : List Event) : State := { s with schedule := es }

/-! ### The register window -/

/-- What a 32-bit read of a register returns (10_state.md R22; 40_register_access.md R100 to R120). -/
def readReg (r : Reg) (s : State) : Word :=
  match r with
  | .srcFreq => s.block.srcFreq
  | .tgtFreq => s.block.tgtFreq
  | .baseDiv => s.block.baseDiv
  | .constraints => constraintsWord s.block.intBits s.block.denBits
  | .ctrl => 0#32
  | .status => s.block.status.word
  | .resInt => s.block.resInt
  | .resNum => s.block.resNum
  | .resDen => s.block.resDen
  | .caps => capsWord s.params
  | .rsvd28 => 0#32
  | .rsvd2C => 0#32
  | .rsvd30 => 0#32
  | .rsvd34 => 0#32
  | .rsvd38 => 0#32
  | .rsvd3C => 0#32

/-- The byte the block presents on the lane of byte address `P_BASE_ADDR + off`, for `off` below 64
(20_memory.md R50). -/
def windowByte (off : Nat) (s : State) : Byte :=
  lane (readReg (Reg.ofSel (BitVec.ofNat 4 (off / 4))) s) (off % 4)

/-- One bus read: the master gets the register's value; nothing else changes (20_memory.md R55). -/
def busRead (r : Reg) (s : State) : State := s.respond (readReg r s)

/-! ### The commands -/

/-- The commands of 30_encoding.md R74. -/
inductive Command where
  | nop
  | solve
  | clear
  | reserved
  deriving DecidableEq, Repr

/-- The command of a code (R74). -/
def Command.ofCode (code : BitVec 4) : Command :=
  match code with
  | 0#4 => .nop
  | 1#4 => .solve
  | 2#4 => .clear
  | _ => .reserved

/-- An accepted `SOLVE`: take the snapshot, `STATUS <- 0x00000001`, keep the results (41_commands.md R132). -/
def startSolve (s : State) : State := (s.withSnap s.block.capture).withStatus Status.solving

/-- `CLEAR`: `STATUS <- 0`, the rest unchanged (R134). -/
def clearStatus (s : State) : State := s.withStatus Status.clear

/-- A reserved command: `ERR` and `ERR_CODE = BAD_COMMAND`, the rest unchanged (R136). -/
def rejectCommand (s : State) : State := s.withStatus s.block.status.badCommand

/-- What an idle block does with a command (R130, R132, R134, R136). -/
def performCommand (c : Command) (s : State) : State :=
  match c with
  | .nop => s
  | .solve => startSolve s
  | .clear => clearStatus s
  | .reserved => rejectCommand s

/-- A command while `BUSY = 1` is dropped: no state changes (R137). -/
def whileIdle (c : Command) (s : State) : State :=
  if s.block.status.busy then s else performCommand c s

/-- A write to `CTRL`: the command is `v[3:0]`, `v[31:4]` is ignored (40_register_access.md R109). -/
def writeCtrl (v : Word) (s : State) : State := whileIdle (Command.ofCode (v.extractLsb' 0 4)) s

/-- One bus write (20_memory.md R56): an input register stores the word, in `CONSTRAINTS` only its two
fields; `CTRL` issues a command; a read-only register or a reserved offset ignores it. -/
def busWrite (r : Reg) (v : Word) (s : State) : State :=
  match r with
  | .srcFreq => s.withBlock { s.block with srcFreq := v }
  | .tgtFreq => s.withBlock { s.block with tgtFreq := v }
  | .baseDiv => s.withBlock { s.block with baseDiv := v }
  | .constraints => s.withBlock { s.block with intBits := intBitsField v, denBits := denBitsField v }
  | .ctrl => writeCtrl v s
  | .status => s
  | .resInt => s
  | .resNum => s
  | .resDen => s
  | .caps => s
  | .rsvd28 => s
  | .rsvd2C => s
  | .rsvd30 => s
  | .rsvd34 => s
  | .rsvd38 => s
  | .rsvd3C => s

/-! ### The engine -/

/-- `complete_ok` (41_commands.md R140). -/
def completeOk (d : Divider) (s : State) : State :=
  (s.withResult (BitVec.ofNat 32 d.int) (BitVec.ofNat 32 d.num) (BitVec.ofNat 32 d.den)).withStatus
    (Status.result d.path d.neg d.intRange)

/-- `complete_error(code)`, the block's report of an error (R141, 60_exceptions.md R200): it stands where a
processor takes an exception. The results stay; `CLEAR`, the next `SOLVE` or a reset ends the report (R206). -/
def completeError (e : SolveError) (s : State) : State := s.withStatus (Status.rejected e)

/-- The completion step, applied to the snapshot (R139). -/
def complete (s : State) : State :=
  match solve s.params s.block.snap.inputs with
  | .ok d => completeOk d s
  | .error e => completeError e s

/-- The engine's turn: its one step is completion, enabled exactly when `BUSY = 1` (R138). -/
def engineTurn (s : State) : State := if s.block.status.busy then complete s else s

/-! ### Reset and faults -/

/-- A snapshot of free values, drawn from counter `n` up (10_state.md R43: unspecified). -/
def freeSnapshot (n : Nat) : Snapshot :=
  { srcFreq := Config.freeWord n
    tgtFreq := Config.freeWord (n + 1)
    baseDiv := Config.freeWord (n + 2)
    intBits := Config.freeByte n
    denBits := Config.freeByte (n + 1) }

/-- The reset event (70_reset_and_hazards.md R230): every register at its reset value, the snapshot
unspecified. The parameters, the record of faults and what the masters have read are not block state. -/
def resetEvent (s : State) : State :=
  { s with block := Block.reset s.params (freeSnapshot s.free), free := s.free + 3 }

/-- The model's record of a faulted step: no register changes and the record is never cleared (20_memory.md
R53). -/
def recordFault (f : Fault) (s : State) : State := { s with faults := s.faults ++ [f] }

end Sys2Proof.Machine
end

