-- ==== Sys2Proof/Machine/Commands.lean ====
section
/-! DEFINITION. `WR_CTRL` (spec/40_register_access.md R109) and the commands (41_commands.md R130 to R137).

A command is the data word of a write to `CTRL`. Its meaning is that whole write: performed while
`STATUS.BUSY = 0`, dropped while it is 1 (R137). `hi` is bits [31:4], which R73 ignores. -/

namespace Sys2Proof.Machine

/-- `WR_CTRL` (R109). -/
def execWrCtrl (v : Word) (s : State) : Host.Outcome State Fault Refusal := .next (busWrite .ctrl v s)

/-- `NOP` (R130). -/
def execNop (_hi : BitVec 28) (s : State) : Host.Outcome State Fault Refusal := .next (whileIdle .nop s)

/-- `SOLVE` (R132). -/
def execSolve (_hi : BitVec 28) (s : State) : Host.Outcome State Fault Refusal := .next (whileIdle .solve s)

/-- `CLEAR` (R134). -/
def execClear (_hi : BitVec 28) (s : State) : Host.Outcome State Fault Refusal := .next (whileIdle .clear s)

/-- `RSVD_CMD_3` (R136). -/
def execRsvdCmd3 (_hi : BitVec 28) (s : State) : Host.Outcome State Fault Refusal := .next (whileIdle .reserved s)

/-- `RSVD_CMD_4` (R136). -/
def execRsvdCmd4 (_hi : BitVec 28) (s : State) : Host.Outcome State Fault Refusal := .next (whileIdle .reserved s)

/-- `RSVD_CMD_5` (R136). -/
def execRsvdCmd5 (_hi : BitVec 28) (s : State) : Host.Outcome State Fault Refusal := .next (whileIdle .reserved s)

/-- `RSVD_CMD_6` (R136). -/
def execRsvdCmd6 (_hi : BitVec 28) (s : State) : Host.Outcome State Fault Refusal := .next (whileIdle .reserved s)

/-- `RSVD_CMD_7` (R136). -/
def execRsvdCmd7 (_hi : BitVec 28) (s : State) : Host.Outcome State Fault Refusal := .next (whileIdle .reserved s)

/-- `RSVD_CMD_8` (R136). -/
def execRsvdCmd8 (_hi : BitVec 28) (s : State) : Host.Outcome State Fault Refusal := .next (whileIdle .reserved s)

/-- `RSVD_CMD_9` (R136). -/
def execRsvdCmd9 (_hi : BitVec 28) (s : State) : Host.Outcome State Fault Refusal := .next (whileIdle .reserved s)

/-- `RSVD_CMD_A` (R136). -/
def execRsvdCmdA (_hi : BitVec 28) (s : State) : Host.Outcome State Fault Refusal := .next (whileIdle .reserved s)

/-- `RSVD_CMD_B` (R136). -/
def execRsvdCmdB (_hi : BitVec 28) (s : State) : Host.Outcome State Fault Refusal := .next (whileIdle .reserved s)

/-- `RSVD_CMD_C` (R136). -/
def execRsvdCmdC (_hi : BitVec 28) (s : State) : Host.Outcome State Fault Refusal := .next (whileIdle .reserved s)

/-- `RSVD_CMD_D` (R136). -/
def execRsvdCmdD (_hi : BitVec 28) (s : State) : Host.Outcome State Fault Refusal := .next (whileIdle .reserved s)

/-- `RSVD_CMD_E` (R136). -/
def execRsvdCmdE (_hi : BitVec 28) (s : State) : Host.Outcome State Fault Refusal := .next (whileIdle .reserved s)

/-- `RSVD_CMD_F` (R136). -/
def execRsvdCmdF (_hi : BitVec 28) (s : State) : Host.Outcome State Fault Refusal := .next (whileIdle .reserved s)

end Sys2Proof.Machine
end

