-- ==== Sys2Proof/Machine/RegisterAccess.lean ====
section
/-! DEFINITION. The register access operations (spec/40_register_access.md R100 to R121) but for `WR_CTRL`,
which stands with the commands. -/

namespace Sys2Proof.Machine

/-- `RD_SRC_FREQ` (R100). -/
def execRdSrcFreq (s : State) : Host.Outcome State Fault Refusal := .next (busRead .srcFreq s)

/-- `WR_SRC_FREQ` (R101). -/
def execWrSrcFreq (v : Word) (s : State) : Host.Outcome State Fault Refusal := .next (busWrite .srcFreq v s)

/-- `RD_TGT_FREQ` (R102). -/
def execRdTgtFreq (s : State) : Host.Outcome State Fault Refusal := .next (busRead .tgtFreq s)

/-- `WR_TGT_FREQ` (R103). -/
def execWrTgtFreq (v : Word) (s : State) : Host.Outcome State Fault Refusal := .next (busWrite .tgtFreq v s)

/-- `RD_BASE_DIV` (R104). -/
def execRdBaseDiv (s : State) : Host.Outcome State Fault Refusal := .next (busRead .baseDiv s)

/-- `WR_BASE_DIV` (R105). -/
def execWrBaseDiv (v : Word) (s : State) : Host.Outcome State Fault Refusal := .next (busWrite .baseDiv v s)

/-- `RD_CONSTRAINTS` (R106). -/
def execRdConstraints (s : State) : Host.Outcome State Fault Refusal := .next (busRead .constraints s)

/-- `WR_CONSTRAINTS` (R107). -/
def execWrConstraints (v : Word) (s : State) : Host.Outcome State Fault Refusal := .next (busWrite .constraints v s)

/-- `RD_CTRL` (R108). -/
def execRdCtrl (s : State) : Host.Outcome State Fault Refusal := .next (busRead .ctrl s)

/-- `RD_STATUS` (R110). -/
def execRdStatus (s : State) : Host.Outcome State Fault Refusal := .next (busRead .status s)

/-- `WR_STATUS` (R111). -/
def execWrStatus (v : Word) (s : State) : Host.Outcome State Fault Refusal := .next (busWrite .status v s)

/-- `RD_RES_INT` (R112). -/
def execRdResInt (s : State) : Host.Outcome State Fault Refusal := .next (busRead .resInt s)

/-- `WR_RES_INT` (R113). -/
def execWrResInt (v : Word) (s : State) : Host.Outcome State Fault Refusal := .next (busWrite .resInt v s)

/-- `RD_RES_NUM` (R114). -/
def execRdResNum (s : State) : Host.Outcome State Fault Refusal := .next (busRead .resNum s)

/-- `WR_RES_NUM` (R115). -/
def execWrResNum (v : Word) (s : State) : Host.Outcome State Fault Refusal := .next (busWrite .resNum v s)

/-- `RD_RES_DEN` (R116). -/
def execRdResDen (s : State) : Host.Outcome State Fault Refusal := .next (busRead .resDen s)

/-- `WR_RES_DEN` (R117). -/
def execWrResDen (v : Word) (s : State) : Host.Outcome State Fault Refusal := .next (busWrite .resDen v s)

/-- `RD_CAPS` (R118). -/
def execRdCaps (s : State) : Host.Outcome State Fault Refusal := .next (busRead .caps s)

/-- `WR_CAPS` (R119). -/
def execWrCaps (v : Word) (s : State) : Host.Outcome State Fault Refusal := .next (busWrite .caps v s)

/-- `RD_RSVD_28` (R120). -/
def execRdRsvd28 (s : State) : Host.Outcome State Fault Refusal := .next (busRead .rsvd28 s)

/-- `WR_RSVD_28` (R121). -/
def execWrRsvd28 (v : Word) (s : State) : Host.Outcome State Fault Refusal := .next (busWrite .rsvd28 v s)

/-- `RD_RSVD_2C` (R120). -/
def execRdRsvd2C (s : State) : Host.Outcome State Fault Refusal := .next (busRead .rsvd2C s)

/-- `WR_RSVD_2C` (R121). -/
def execWrRsvd2C (v : Word) (s : State) : Host.Outcome State Fault Refusal := .next (busWrite .rsvd2C v s)

/-- `RD_RSVD_30` (R120). -/
def execRdRsvd30 (s : State) : Host.Outcome State Fault Refusal := .next (busRead .rsvd30 s)

/-- `WR_RSVD_30` (R121). -/
def execWrRsvd30 (v : Word) (s : State) : Host.Outcome State Fault Refusal := .next (busWrite .rsvd30 v s)

/-- `RD_RSVD_34` (R120). -/
def execRdRsvd34 (s : State) : Host.Outcome State Fault Refusal := .next (busRead .rsvd34 s)

/-- `WR_RSVD_34` (R121). -/
def execWrRsvd34 (v : Word) (s : State) : Host.Outcome State Fault Refusal := .next (busWrite .rsvd34 v s)

/-- `RD_RSVD_38` (R120). -/
def execRdRsvd38 (s : State) : Host.Outcome State Fault Refusal := .next (busRead .rsvd38 s)

/-- `WR_RSVD_38` (R121). -/
def execWrRsvd38 (v : Word) (s : State) : Host.Outcome State Fault Refusal := .next (busWrite .rsvd38 v s)

/-- `RD_RSVD_3C` (R120). -/
def execRdRsvd3C (s : State) : Host.Outcome State Fault Refusal := .next (busRead .rsvd3C s)

/-- `WR_RSVD_3C` (R121). -/
def execWrRsvd3C (v : Word) (s : State) : Host.Outcome State Fault Refusal := .next (busWrite .rsvd3C v s)

end Sys2Proof.Machine
end

