-- ==== Sys2Proof/Machine/Dispatch.lean ====
section
/-! DEFINITION. One arm per operation of spec/opcode_table.json, each a direct call of its meaning. -/

namespace Sys2Proof.Machine

def exec (i : Instr) (s : State) : Host.Outcome State Fault Refusal :=
  match i with
  | .rdSrcFreq => Sys2Proof.Machine.execRdSrcFreq s
  | .wrSrcFreq v => Sys2Proof.Machine.execWrSrcFreq v s
  | .rdTgtFreq => Sys2Proof.Machine.execRdTgtFreq s
  | .wrTgtFreq v => Sys2Proof.Machine.execWrTgtFreq v s
  | .rdBaseDiv => Sys2Proof.Machine.execRdBaseDiv s
  | .wrBaseDiv v => Sys2Proof.Machine.execWrBaseDiv v s
  | .rdConstraints => Sys2Proof.Machine.execRdConstraints s
  | .wrConstraints v => Sys2Proof.Machine.execWrConstraints v s
  | .rdCtrl => Sys2Proof.Machine.execRdCtrl s
  | .wrCtrl v => Sys2Proof.Machine.execWrCtrl v s
  | .rdStatus => Sys2Proof.Machine.execRdStatus s
  | .wrStatus v => Sys2Proof.Machine.execWrStatus v s
  | .rdResInt => Sys2Proof.Machine.execRdResInt s
  | .wrResInt v => Sys2Proof.Machine.execWrResInt v s
  | .rdResNum => Sys2Proof.Machine.execRdResNum s
  | .wrResNum v => Sys2Proof.Machine.execWrResNum v s
  | .rdResDen => Sys2Proof.Machine.execRdResDen s
  | .wrResDen v => Sys2Proof.Machine.execWrResDen v s
  | .rdCaps => Sys2Proof.Machine.execRdCaps s
  | .wrCaps v => Sys2Proof.Machine.execWrCaps v s
  | .rdRsvd28 => Sys2Proof.Machine.execRdRsvd28 s
  | .wrRsvd28 v => Sys2Proof.Machine.execWrRsvd28 v s
  | .rdRsvd2C => Sys2Proof.Machine.execRdRsvd2C s
  | .wrRsvd2C v => Sys2Proof.Machine.execWrRsvd2C v s
  | .rdRsvd30 => Sys2Proof.Machine.execRdRsvd30 s
  | .wrRsvd30 v => Sys2Proof.Machine.execWrRsvd30 v s
  | .rdRsvd34 => Sys2Proof.Machine.execRdRsvd34 s
  | .wrRsvd34 v => Sys2Proof.Machine.execWrRsvd34 v s
  | .rdRsvd38 => Sys2Proof.Machine.execRdRsvd38 s
  | .wrRsvd38 v => Sys2Proof.Machine.execWrRsvd38 v s
  | .rdRsvd3C => Sys2Proof.Machine.execRdRsvd3C s
  | .wrRsvd3C v => Sys2Proof.Machine.execWrRsvd3C v s
  | .nop hi => Sys2Proof.Machine.execNop hi s
  | .solve hi => Sys2Proof.Machine.execSolve hi s
  | .clear hi => Sys2Proof.Machine.execClear hi s
  | .rsvdCmd3 hi => Sys2Proof.Machine.execRsvdCmd3 hi s
  | .rsvdCmd4 hi => Sys2Proof.Machine.execRsvdCmd4 hi s
  | .rsvdCmd5 hi => Sys2Proof.Machine.execRsvdCmd5 hi s
  | .rsvdCmd6 hi => Sys2Proof.Machine.execRsvdCmd6 hi s
  | .rsvdCmd7 hi => Sys2Proof.Machine.execRsvdCmd7 hi s
  | .rsvdCmd8 hi => Sys2Proof.Machine.execRsvdCmd8 hi s
  | .rsvdCmd9 hi => Sys2Proof.Machine.execRsvdCmd9 hi s
  | .rsvdCmdA hi => Sys2Proof.Machine.execRsvdCmdA hi s
  | .rsvdCmdB hi => Sys2Proof.Machine.execRsvdCmdB hi s
  | .rsvdCmdC hi => Sys2Proof.Machine.execRsvdCmdC hi s
  | .rsvdCmdD hi => Sys2Proof.Machine.execRsvdCmdD hi s
  | .rsvdCmdE hi => Sys2Proof.Machine.execRsvdCmdE hi s
  | .rsvdCmdF hi => Sys2Proof.Machine.execRsvdCmdF hi s

end Sys2Proof.Machine
end

