-- ==== Sys2Proof/Machine/Agents.lean ====
section
/-! DEFINITION. One step of each agent (spec/00_scope.md R7), and the state a fault or a refusal leaves in
the total order (R8, 20_memory.md R59). -/

namespace Sys2Proof.Machine

/-- A bus master performs one access (R7): an unsupported one faults (20_memory.md R53), one outside the
window is not the block's (93_implementation_defined.md I13), and any other executes. -/
def masterStep (a : Access) (s : State) : Host.Outcome State Fault Refusal :=
  match decodeAccess s.params a with
  | .ok i => exec i s
  | .error .outsideWindow => .refused (.outsideWindow a.addr a.size)
  | .error _ => .fault (.unsupportedAccess a.addr a.size a.kind.isWrite)

/-- The agent whose turn an entry of the schedule is. -/
def eventStep (e : Event) (s : State) : Host.Outcome State Fault Refusal :=
  match e with
  | .bus a => masterStep a s
  | .engine => .next (engineTurn s)
  | .reset => .next (resetEvent s)

/-- The state after a step, whatever its outcome; `s` is the state with that step's entry taken off the
schedule. A faulted step is recorded and changes nothing else (R53, log entry 5). -/
def outcomeState (s : State) (o : Host.Outcome State Fault Refusal) : State :=
  match o with
  | .next t => t
  | .fault f => recordFault f s
  | .refused _ => s

end Sys2Proof.Machine
end

