-- ==== Sys2Proof/Machine/Step.lean ====
section
/-! DEFINITION. One step of the machine: the agent at the head of the schedule moves. With nothing
scheduled the engine moves, if it has a step to take: that is its weak fairness (spec/41_commands.md R139). -/

namespace Sys2Proof.Machine

/-- One step of the total order (00_scope.md R7, R8; 20_memory.md R59). -/
def step (s : State) : Host.Outcome State Fault Refusal :=
  match s.schedule with
  | [] => .next (engineTurn s)
  | e :: rest => eventStep e (s.withSchedule rest)

/-- One step that goes on after a fault with the record the spec asks for (R8, 20_memory.md R53, R230), and
after a refusal as if the access were not there: the whole total order of 20_memory.md R59. -/
def advance (s : State) : State := outcomeState (s.withSchedule s.schedule.tail) (step s)

/-- `n` steps of the total order. -/
def advanceN : Nat → State → State
  | 0, s => s
  | n + 1, s => advanceN n (advance s)

/-- `s` with the operation of a word of the opcode table as the next access of a master (log entry 1). -/
def State.withFetchWord (s : State) (nbits w : Nat) : State :=
  s.withSchedule (.bus (tableAccess s.params nbits w) :: s.schedule)

end Sys2Proof.Machine
end

