-- ==== Sys2Proof/Machine/Assembler.lean ====
section
/-! DEFINITION. The masters' programs: assembler lines, the expansions of the pseudo-instructions, and the bus
accesses and listing they encode as (spec/30_encoding.md R81, R82). -/

namespace Sys2Proof.Machine

/-- The byte offset a register operand names (R81). -/
def asmOffset : AsmReg → Nat
  | .named r => r.offset
  | .offset off => off

/-- The `RD STATUS` of one run of `WAIT_IDLE`: the last of them is the one that reads `BUSY = 0` (R82, log
entry 19). -/
def waitIdleLines (polls : Nat) : List AsmLine := List.replicate (polls + 1) (.rd (.named .status))

/-- The `RD` and `WR` lines a line stands for: itself, or a pseudo-instruction's expansion (R82). -/
def expandLine : AsmLine → List AsmLine
  | .rd r => [.rd r]
  | .wr r v => [.wr r v]
  | .nop => [.wr (.named .ctrl) 0x0]
  | .solve => [.wr (.named .ctrl) 0x1]
  | .clear => [.wr (.named .ctrl) 0x2]
  | .waitIdle polls => waitIdleLines polls
  | .solveSync polls => .wr (.named .ctrl) 0x1 :: waitIdleLines polls
  | .config s t b ib db =>
    [.wr (.named .srcFreq) s, .wr (.named .tgtFreq) t, .wr (.named .baseDiv) b,
     .wr (.named .constraints) (configWord ib db)]

/-- The accesses of `RD` and `WR` lines; a pseudo-instruction is expanded first. -/
def basicAccess (p : Params) : AsmLine → List Access
  | .rd r => [⟨p.baseAddr + asmOffset r, 4, .read⟩]
  | .wr r v => [⟨p.baseAddr + asmOffset r, 4, .write (BitVec.ofNat 32 v)⟩]
  | .nop => []
  | .solve => []
  | .clear => []
  | .waitIdle _ => []
  | .solveSync _ => []
  | .config _ _ _ _ _ => []

/-- The bus accesses of a line, in order. -/
def lineAccesses (p : Params) (l : AsmLine) : List Access := (expandLine l).flatMap (basicAccess p)

/-- A program as the masters' entries of a schedule. -/
def programEvents (p : Params) (ls : List AsmLine) : List Event :=
  (ls.flatMap (lineAccesses p)).map .bus

/-- The listing of a line: for each access its key and its data word (R81). A `RD` shows no data; 0 stands in
its place. -/
def lineListing (p : Params) (l : AsmLine) : List (BitVec 7 × Word) :=
  (lineAccesses p l).map fun a => (a.key p, a.kind.data)

end Sys2Proof.Machine
end

