-- ==== Sys2Proof/Safety.lean ====
section
/-! DEFINITION. What counts as a good state, a clean run and a reachable state, in the terms the statements use. -/

namespace Sys2Proof.Machine

/-- The relations of spec/10_state.md R42 among the fields of `STATUS`. -/
def Status.Coherent (st : Status) : Prop :=
  (st.busy = true → st.done = false ∧ st.err = false ∧ st.errCode = 0#3 ∧ st.path = 0#2
    ∧ st.neg = false ∧ st.intRange = false)
  ∧ (st.err = true ↔ st.errCode ≠ 0#3)
  ∧ (st.done = true → st.err = true → st.errCode = badCommandCode)
  ∧ st.errCode ≠ 6#3 ∧ st.errCode ≠ 7#3

/-- `PATH`, `NEG` and `INT_RANGE` are 0 unless `DONE = 1` (R31, R33, R34: cleared with `DONE`). -/
def Status.FlagsOnlyWhenDone (st : Status) : Prop :=
  st.done = false → st.path = 0#2 ∧ st.neg = false ∧ st.intRange = false

/-- While `DONE = 1` the result registers, `PATH`, `NEG` and `INT_RANGE` are the result of `Solve` on the
snapshot, each number in full (10_state.md R30). -/
def Block.ResultOfSnapshot (p : Params) (b : Block) : Prop :=
  b.status.done = true →
    ∃ d : Divider, solve p b.snap.inputs = .ok d
      ∧ b.resInt.toNat = d.int ∧ b.resNum.toNat = d.num ∧ b.resDen.toNat = d.den
      ∧ b.status.path = d.path.code ∧ b.status.neg = d.neg ∧ b.status.intRange = d.intRange

/-- While `STATUS` reports one of the errors 1 to 4, `Solve` on the snapshot gives that error
(60_exceptions.md R201). -/
def Block.ErrorOfSnapshot (p : Params) (b : Block) : Prop :=
  b.status.err = true → b.status.errCode ≠ badCommandCode →
    ∃ e : SolveError, solve p b.snap.inputs = .error e ∧ b.status.errCode = e.code

/-- A denominator of 0 can never be read (40_register_access.md R117). -/
def Block.DenominatorPositive (b : Block) : Prop := b.resDen ≠ 0#32

/-- The invariant of the block under parameters `p`. -/
structure Block.Inv (p : Params) (b : Block) : Prop where
  coherent : b.status.Coherent
  flagsOnlyWhenDone : b.status.FlagsOnlyWhenDone
  resultOfSnapshot : b.ResultOfSnapshot p
  errorOfSnapshot : b.ErrorOfSnapshot p
  denominatorPositive : b.DenominatorPositive

/-- The invariant of the machine: legal parameters (00_scope.md R5) and the block's invariant. -/
structure State.Inv (s : State) : Prop where
  legalParams : s.params.wf = true
  block : s.block.Inv s.params

/-- No faulted step is recorded (00_scope.md R8). -/
def State.Clean (s : State) : Prop := s.faults = []

/-- The state right after reset with parameters `p` and the masters', engine's and resets' order `es`. -/
def State.initial (p : Params) (es : List Event) : State :=
  { State.reset with params := p, block := Block.reset p Snapshot.zero, schedule := es }

/-- The states some run passes through: from reset, with any legal parameters and any schedule. -/
inductive Reachable : State → Prop where
  | initial (p : Params) (es : List Event) (h : p.wf = true) : Reachable (State.initial p es)
  | next (s : State) (h : Reachable s) : Reachable (advance s)

/-- Two states that differ at most in the snapshot, and not even there while a solve is running. The snapshot
of an idle block is what 10_state.md R43 leaves unspecified. -/
structure SameButIdleSnapshot (s t : State) : Prop where
  params : s.params = t.params
  block : s.block = { t.block with snap := s.block.snap }
  schedule : s.schedule = t.schedule
  readData : s.readData = t.readData
  faults : s.faults = t.faults
  free : s.free = t.free
  snap : s.block.status.busy = true → s.block.snap = t.block.snap

/-- The engine is the agent that moves next: its turn is at the head of the schedule, or nothing is scheduled. -/
def State.EngineNext (s : State) : Prop := s.schedule = [] ∨ ∃ rest, s.schedule = .engine :: rest

/-- The entry is a bus access that writes a `SOLVE` command to `CTRL` (30_encoding.md R74). -/
def Event.IsSolve (p : Params) (e : Event) : Prop :=
  ∃ a v, e = .bus a ∧ decodeAccess p a = .ok (.wrCtrl v) ∧ v.extractLsb' 0 4 = 1#4

/-- The inputs have the widths of the registers that hold them (00_scope.md R5). -/
structure Inputs.InRange (x : Inputs) : Prop where
  srcFreq : x.srcFreq < 2 ^ 32
  tgtFreq : x.tgtFreq < 2 ^ 32
  baseDiv : x.baseDiv < 2 ^ 32
  intBits : x.intBits < 2 ^ 8
  denBits : x.denBits < 2 ^ 8

/-- The inputs pass the validation of 42_solver.md R150 to R152. -/
structure Inputs.Valid (p : Params) (x : Inputs) : Prop where
  target : x.tgtFreq ≠ 0
  source : x.srcFreq ≠ 0
  constraints : badConstraints p x = false

/-- A valid solve that is no exact match and does not carry: it reaches the search (42_solver.md R159). -/
structure Inputs.ReachesSearch (p : Params) (x : Inputs) : Prop where
  valid : x.Valid p
  notExact : freqDiff x ≠ 0
  noCarry : carries p.carryRule (freqDiff x) x.tgtFreq (dMax x.denBits) = false

end Sys2Proof.Machine
end

