-- ==== Sys2Proof/Certificates/Slice0/Obligations.lean ====
section
/-! DEFINITION. The statements for the provers. Each docstring names the rule of spec/ that the statement
formalises, or the log entry whose choice it rests on. -/

open Sys2Proof Sys2Proof.Machine

/-! ### Reset -/

/-- 10_state.md R43: the reset value of every register, for every value of the parameters; with the defaults
`CONSTRAINTS` reads 0x620 and `CAPS` 0x6. The snapshot is unspecified and nothing is said of it. -/
def Obligations.ResetValueOfEveryRegister : Prop :=
  (∀ (p : Params) (snap : Snapshot) (s : State), p.wf = true → s.params = p → s.block = Block.reset p snap →
    readReg .srcFreq s = 0#32 ∧ readReg .tgtFreq s = 0#32 ∧ readReg .baseDiv s = 0#32
    ∧ s.block.intBits = 32#8 ∧ s.block.denBits.toNat = p.denBitsMax
    ∧ readReg .constraints s = 0#16 ++ s.block.denBits ++ 32#8
    ∧ readReg .status s = 0#32
    ∧ readReg .resInt s = 0#32 ∧ readReg .resNum s = 0#32 ∧ readReg .resDen s = 1#32
    ∧ readReg .caps s = capsWord p)
  ∧ State.reset.params = Params.default ∧ (∃ snap, State.reset.block = Block.reset Params.default snap)
  ∧ readReg .constraints State.reset = 0x620#32 ∧ readReg .caps State.reset = 0x6#32

/-- 70_reset_and_hazards.md R230: a reset event sets every register to its reset value, keeps `CAPS` (the
parameters) and keeps the record of faulted steps; and the snapshot it leaves unspecified is never read, whatever
follows, before a `SOLVE` writes it: with any other snapshot every register reads the same ever after. -/
def Obligations.ResetEventSetsEveryRegister : Prop :=
  ∀ (s : State) (rest : List Event), s.schedule = .reset :: rest →
    ∃ t, step s = .next t
      ∧ t.block.srcFreq = 0#32 ∧ t.block.tgtFreq = 0#32 ∧ t.block.baseDiv = 0#32
      ∧ t.block.resInt = 0#32 ∧ t.block.resNum = 0#32 ∧ t.block.resDen = 1#32
      ∧ t.block.intBits = 32#8 ∧ t.block.denBits = BitVec.ofNat 8 s.params.denBitsMax
      ∧ t.block.status.word = 0#32 ∧ t.block.status = Status.clear
      ∧ readReg .caps t = readReg .caps s ∧ t.params = s.params
      ∧ t.faults = s.faults ∧ t.readData = s.readData ∧ t.schedule = rest
      ∧ ∀ (sn : Snapshot) (n : Nat) (r : Reg),
          readReg r (advanceN n (t.withSnap sn)) = readReg r (advanceN n t)

/-- 70_reset_and_hazards.md R231: a reset while a solve runs abandons it. Until another `SOLVE` is written,
whatever else happens, the block stays idle and the result registers keep their reset values. -/
def Obligations.ResetAbandonsRunningSolve : Prop :=
  ∀ (s : State) (es : List Event), s.block.status.busy = true → s.schedule = .reset :: es →
    (∀ e ∈ es, ¬ e.IsSolve s.params) →
    ∀ n, (advanceN (n + 1) s).block.status.busy = false
      ∧ (advanceN (n + 1) s).block.status.done = false
      ∧ (advanceN (n + 1) s).block.resInt = 0#32
      ∧ (advanceN (n + 1) s).block.resNum = 0#32
      ∧ (advanceN (n + 1) s).block.resDen = 1#32

/-! ### Register access -/

/-- 40_register_access.md R100, R102, R104, R106: each input register's read has its key, returns the
register and changes nothing, whether or not a solve runs. The value is returned in `readData` (log entry 4). -/
def Obligations.InputRegisterReadsReturnRegister : Prop :=
  (∀ v, decodeKey 0x00#7 v = .ok .rdSrcFreq ∧ decodeKey 0x04#7 v = .ok .rdTgtFreq
    ∧ decodeKey 0x08#7 v = .ok .rdBaseDiv ∧ decodeKey 0x0C#7 v = .ok .rdConstraints)
  ∧ ∀ s : State,
    exec .rdSrcFreq s = .next { s with readData := some s.block.srcFreq }
    ∧ exec .rdTgtFreq s = .next { s with readData := some s.block.tgtFreq }
    ∧ exec .rdBaseDiv s = .next { s with readData := some s.block.baseDiv }
    ∧ exec .rdConstraints s = .next { s with readData := some (0#16 ++ s.block.denBits ++ s.block.intBits) }

/-- 40_register_access.md R108, R110, R112, R114, R116, R118: `CTRL` reads 0, the others return their value and
change nothing; and a busy `STATUS` reads 0x00000001 exactly, where the relations of 10_state.md R42 hold. -/
def Obligations.ControlStatusResultReads : Prop :=
  (∀ v, decodeKey 0x10#7 v = .ok .rdCtrl ∧ decodeKey 0x14#7 v = .ok .rdStatus ∧ decodeKey 0x18#7 v = .ok .rdResInt
    ∧ decodeKey 0x1C#7 v = .ok .rdResNum ∧ decodeKey 0x20#7 v = .ok .rdResDen ∧ decodeKey 0x24#7 v = .ok .rdCaps)
  ∧ ∀ s : State,
    exec .rdCtrl s = .next { s with readData := some 0#32 }
    ∧ exec .rdStatus s = .next { s with readData := some s.block.status.word }
    ∧ exec .rdResInt s = .next { s with readData := some s.block.resInt }
    ∧ exec .rdResNum s = .next { s with readData := some s.block.resNum }
    ∧ exec .rdResDen s = .next { s with readData := some s.block.resDen }
    ∧ exec .rdCaps s = .next { s with
        readData := some (BitVec.ofNat 32 s.params.denBitsMax
          ||| (if s.params.carryRule = .observed then 0x100#32 else 0#32)) }
    ∧ (s.block.status.Coherent → s.block.status.busy = true → s.block.status.word = 0x1#32)

/-- 40_register_access.md R120: every reserved offset has its read key and reads 0. -/
def Obligations.ReservedOffsetsReadZero : Prop :=
  (∀ v, decodeKey 0x28#7 v = .ok .rdRsvd28 ∧ decodeKey 0x2C#7 v = .ok .rdRsvd2C ∧ decodeKey 0x30#7 v = .ok .rdRsvd30
    ∧ decodeKey 0x34#7 v = .ok .rdRsvd34 ∧ decodeKey 0x38#7 v = .ok .rdRsvd38 ∧ decodeKey 0x3C#7 v = .ok .rdRsvd3C)
  ∧ ∀ s : State,
    exec .rdRsvd28 s = .next { s with readData := some 0#32 }
    ∧ exec .rdRsvd2C s = .next { s with readData := some 0#32 }
    ∧ exec .rdRsvd30 s = .next { s with readData := some 0#32 }
    ∧ exec .rdRsvd34 s = .next { s with readData := some 0#32 }
    ∧ exec .rdRsvd38 s = .next { s with readData := some 0#32 }
    ∧ exec .rdRsvd3C s = .next { s with readData := some 0#32 }

/-- 40_register_access.md R101, R103, R105, R107: each input register's write has its key and stores the word, `CONSTRAINTS`
only its two fields, and changes nothing else, whether or not a solve runs. -/
def Obligations.InputRegisterWritesStoreWord : Prop :=
  ∀ (v : Word) (s : State),
    (decodeKey 0x40#7 v = .ok (.wrSrcFreq v) ∧ decodeKey 0x44#7 v = .ok (.wrTgtFreq v)
      ∧ decodeKey 0x48#7 v = .ok (.wrBaseDiv v) ∧ decodeKey 0x4C#7 v = .ok (.wrConstraints v))
    ∧ exec (.wrSrcFreq v) s = .next { s with block := { s.block with srcFreq := v } }
    ∧ exec (.wrTgtFreq v) s = .next { s with block := { s.block with tgtFreq := v } }
    ∧ exec (.wrBaseDiv v) s = .next { s with block := { s.block with baseDiv := v } }
    ∧ exec (.wrConstraints v) s = .next { s with block :=
        { s.block with intBits := v.extractLsb' 0 8, denBits := v.extractLsb' 8 8 } }

/-- 40_register_access.md R111, R113, R115, R117, R119, R121: a write to a read-only register or to a reserved
offset has its key and no effect. -/
def Obligations.ReadOnlyAndReservedWritesIgnored : Prop :=
  ∀ (v : Word) (s : State),
    (decodeKey 0x54#7 v = .ok (.wrStatus v) ∧ decodeKey 0x58#7 v = .ok (.wrResInt v)
      ∧ decodeKey 0x5C#7 v = .ok (.wrResNum v) ∧ decodeKey 0x60#7 v = .ok (.wrResDen v)
      ∧ decodeKey 0x64#7 v = .ok (.wrCaps v) ∧ decodeKey 0x68#7 v = .ok (.wrRsvd28 v)
      ∧ decodeKey 0x6C#7 v = .ok (.wrRsvd2C v) ∧ decodeKey 0x70#7 v = .ok (.wrRsvd30 v)
      ∧ decodeKey 0x74#7 v = .ok (.wrRsvd34 v) ∧ decodeKey 0x78#7 v = .ok (.wrRsvd38 v)
      ∧ decodeKey 0x7C#7 v = .ok (.wrRsvd3C v))
    ∧ exec (.wrStatus v) s = .next s ∧ exec (.wrResInt v) s = .next s ∧ exec (.wrResNum v) s = .next s
    ∧ exec (.wrResDen v) s = .next s ∧ exec (.wrCaps v) s = .next s
    ∧ exec (.wrRsvd28 v) s = .next s ∧ exec (.wrRsvd2C v) s = .next s ∧ exec (.wrRsvd30 v) s = .next s
    ∧ exec (.wrRsvd34 v) s = .next s ∧ exec (.wrRsvd38 v) s = .next s ∧ exec (.wrRsvd3C v) s = .next s

/-- 20_memory.md R55: no read changes any register, and two reads of one register with only reads between them
return the same value. -/
def Obligations.ReadsHaveNoSideEffects : Prop :=
  ∀ (r : Reg) (s t : State), exec (readInstr r) s = .next t →
    t.block = s.block ∧ t.params = s.params ∧ t.schedule = s.schedule ∧ t.faults = s.faults ∧ t.free = s.free
    ∧ (∀ q, readReg q t = readReg q s)
    ∧ ∀ (between : List Reg) (u : State),
        exec (readInstr r) (between.foldl (fun w q => busRead q w) t) = .next u →
        u.readData = t.readData ∧ u.readData = some (readReg r s)

/-- 20_memory.md R56: a write to a register other than `CTRL` changes at most that register, as every read of
the window shows; an input register then reads as written (the low half of `CONSTRAINTS`), any other reads as
before; and repeating the write changes nothing more. -/
def Obligations.DataWritesChangeOnlyTheirRegister : Prop :=
  ∀ (r : Reg) (v : Word) (s : State), r ≠ .ctrl →
    ∃ t, exec (writeInstr r v) s = .next t
      ∧ (∀ q, q ≠ r → readReg q t = readReg q s)
      ∧ t.block.status = s.block.status ∧ t.block.snap = s.block.snap
      ∧ t.params = s.params ∧ t.schedule = s.schedule ∧ t.readData = s.readData
      ∧ t.faults = s.faults ∧ t.free = s.free
      ∧ (r.isInput = true → readReg r t = if r = .constraints then v &&& 0xFFFF#32 else v)
      ∧ (r.isInput = false → t = s)
      ∧ exec (writeInstr r v) t = .next t

/-- 20_memory.md R50: byte `k` of the word at offset `off` of the window carries bits [8k+7 : 8k], and the four
lanes make up the word. -/
def Obligations.WindowIsLittleEndian : Prop :=
  ∀ (r : Reg) (s : State),
    (∀ k, k < 4 → windowByte (r.offset + k) s = (readReg r s).extractLsb' (8 * k) 8)
    ∧ wordOfBytes (windowByte r.offset s) (windowByte (r.offset + 1) s) (windowByte (r.offset + 2) s)
        (windowByte (r.offset + 3) s) = readReg r s

/-! ### Commands -/

/-- 41_commands.md R130: `NOP` is data with low bits 0, whatever the others, and has no effect. -/
def Obligations.NopHasNoEffect : Prop :=
  ∀ (hi : BitVec 28) (s : State), decodeCommand (hi ++ 0x0#4) = .nop hi ∧ exec (.nop hi) s = .next s

/-- 41_commands.md R132: an accepted `SOLVE` takes the snapshot and sets `STATUS` to 0x00000001; the results,
the inputs and everything else stay. -/
def Obligations.SolveTakesSnapshotAndSetsBusy : Prop :=
  ∀ (hi : BitVec 28) (s : State), s.block.status.busy = false →
    decodeCommand (hi ++ 0x1#4) = .solve hi
    ∧ exec (.solve hi) s = .next { s with block := { s.block with
      snap := { srcFreq := s.block.srcFreq, tgtFreq := s.block.tgtFreq, baseDiv := s.block.baseDiv
                intBits := s.block.intBits, denBits := s.block.denBits }
      status := { busy := true, done := false, err := false, errCode := 0#3, path := 0#2
                  neg := false, intRange := false } } }
    ∧ (∀ t, exec (.solve hi) s = .next t → readReg .status t = 0x1#32)

/-- 41_commands.md R134: `CLEAR` zeroes `STATUS` and leaves everything else. -/
def Obligations.ClearZeroesStatus : Prop :=
  ∀ (hi : BitVec 28) (s : State), s.block.status.busy = false →
    decodeCommand (hi ++ 0x2#4) = .clear hi
    ∧ exec (.clear hi) s = .next { s with block := { s.block with
      status := { busy := false, done := false, err := false, errCode := 0#3, path := 0#2
                  neg := false, intRange := false } } }
    ∧ (∀ t, exec (.clear hi) s = .next t → readReg .status t = 0#32)

/-- 41_commands.md R136: each reserved command sets `ERR = 1` and `ERR_CODE = 5` and leaves everything else. -/
def Obligations.ReservedCommandsReportBadCommand : Prop :=
  ∀ (hi : BitVec 28) (s : State), s.block.status.busy = false →
    (∀ code : BitVec 4, 3 ≤ code.toNat →
      exec (decodeCommand (hi ++ code)) s = .next { s with block := { s.block with
        status := { s.block.status with err := true, errCode := 5#3 } } })
    ∧ ∀ i ∈ [Instr.rsvdCmd3 hi, .rsvdCmd4 hi, .rsvdCmd5 hi, .rsvdCmd6 hi, .rsvdCmd7 hi, .rsvdCmd8 hi,
            .rsvdCmd9 hi, .rsvdCmdA hi, .rsvdCmdB hi, .rsvdCmdC hi, .rsvdCmdD hi, .rsvdCmdE hi, .rsvdCmdF hi],
      exec i s = .next { s with block := { s.block with
        status := { s.block.status with err := true, errCode := 5#3 } } }

/-- 41_commands.md R137: while `BUSY = 1` a write to `CTRL`, whatever its data, changes no state. -/
def Obligations.CtrlWritesDroppedWhileBusy : Prop :=
  ∀ s : State, s.block.status.busy = true →
    (∀ v, exec (.wrCtrl v) s = .next s) ∧ ∀ code hi, exec (commandInstr code hi) s = .next s

/-- 40_register_access.md R109: a write to `CTRL` performs the command of its low four bits while idle, and
nothing while busy. -/
def Obligations.CtrlWritePerformsItsCommand : Prop :=
  ∀ (v : Word) (s : State),
    decodeKey 0x50#7 v = .ok (.wrCtrl v)
    ∧ (s.block.status.busy = true → exec (.wrCtrl v) s = .next s)
    ∧ (s.block.status.busy = false →
        (v.extractLsb' 0 4 = 0#4 → exec (.wrCtrl v) s = .next s)
        ∧ (v.extractLsb' 0 4 = 1#4 → exec (.wrCtrl v) s = .next { s with block := { s.block with
            snap := { srcFreq := s.block.srcFreq, tgtFreq := s.block.tgtFreq, baseDiv := s.block.baseDiv
                      intBits := s.block.intBits, denBits := s.block.denBits }
            status := { busy := true, done := false, err := false, errCode := 0#3, path := 0#2
                        neg := false, intRange := false } } })
        ∧ (v.extractLsb' 0 4 = 2#4 → exec (.wrCtrl v) s = .next { s with block := { s.block with
            status := { busy := false, done := false, err := false, errCode := 0#3, path := 0#2
                        neg := false, intRange := false } } })
        ∧ (3 ≤ (v.extractLsb' 0 4).toNat → exec (.wrCtrl v) s = .next { s with block := { s.block with
            status := { s.block.status with err := true, errCode := 5#3 } } }))

/-- 30_encoding.md R70, R73, R80: a `CTRL` write does what the command its data word encodes does, and any
value of bits [31:4] encodes the same command. -/
def Obligations.CtrlWriteIsItsDecodedCommand : Prop :=
  (∀ (v : Word) (s : State), exec (.wrCtrl v) s = exec (decodeCommand v) s)
  ∧ ∀ (v w : Word) (s : State), v.extractLsb' 0 4 = w.extractLsb' 0 4 → exec (.wrCtrl v) s = exec (.wrCtrl w) s

/-! ### The engine -/

/-- 41_commands.md R140: a completion with a result writes the three results and `STATUS`, and nothing else. -/
def Obligations.CompletionWritesResult : Prop :=
  ∀ (s : State) (d : Divider), s.EngineNext → s.block.status.busy = true →
    solve s.params s.block.snap.inputs = .ok d →
    step s = .next { s with
      schedule := s.schedule.tail
      block := { s.block with
        resInt := BitVec.ofNat 32 d.int, resNum := BitVec.ofNat 32 d.num, resDen := BitVec.ofNat 32 d.den
        status := { busy := false, done := true, err := false, errCode := 0#3
                    path := (match d.path with
                      | .exact => 0#2 | .carry => 1#2 | .searchExact => 2#2 | .searchBest => 3#2)
                    neg := d.neg, intRange := d.intRange } } }

/-- 41_commands.md R141: a completion with an error writes `STATUS` and leaves the results. -/
def Obligations.CompletionReportsError : Prop :=
  ∀ (s : State) (e : SolveError), s.EngineNext → s.block.status.busy = true →
    solve s.params s.block.snap.inputs = .error e →
    step s = .next { s with
      schedule := s.schedule.tail
      block := { s.block with
        status := { busy := false, done := false, err := true
                    errCode := (match e with
                      | .targetZero => 1#3 | .sourceZero => 2#3 | .badConstraints => 3#3 | .carryOverflow => 4#3)
                    path := 0#2, neg := false, intRange := false } } }

/-- 41_commands.md R138: the engine's step is enabled exactly when `BUSY = 1`; it then always ends the solve.
That a turn of an idle engine passes without a change is log entry 3. -/
def Obligations.EngineStepsExactlyWhenBusy : Prop :=
  ∀ s : State, s.EngineNext →
    ∃ t, step s = .next t ∧ t.block.status.busy = false
      ∧ (s.block.status.busy = false → t = { s with schedule := s.schedule.tail })
      ∧ (s.block.status.busy = true → t.block.status.done = true ∨ t.block.status.err = true)

/-! ### The step -/

/-- 30_encoding.md R80: when an access of a master is next and decodes to an operation, the step is that
operation's meaning at the state with the access taken off the schedule. An access that performs a command is
the write to `CTRL` that carries its word, and the step is then that command's meaning. -/
def Obligations.StepRunsDecodedAccess : Prop :=
  (∀ (s : State) (a : Access) (rest : List Event) (i : Instr), s.schedule = .bus a :: rest →
    decodeAccess s.params a = .ok i → step s = exec i { s with schedule := rest })
  ∧ ∀ (s : State) (i : Instr) (rest : List Event), s.schedule = .bus (encodeAccess s.params i) :: rest →
      step s = exec i { s with schedule := rest }

/-- 20_memory.md R53: an access to the window of another size, or misaligned, faults with its address, size and
direction; it changes no register, and the model records the fault and never clears it. It decodes to no operation, and neither does
any key with `OFF[1:0] ≠ 00` (30_encoding.md R71). -/
def Obligations.UnsupportedAccessFaults : Prop :=
  ∀ (s : State) (a : Access) (rest : List Event), s.schedule = .bus a :: rest →
    s.params.baseAddr ≤ a.addr → a.addr < s.params.baseAddr + 64 →
    (a.size ≠ 4 ∨ (a.addr - s.params.baseAddr) % 4 ≠ 0) →
    step s = .fault (.unsupportedAccess a.addr a.size a.kind.isWrite)
    ∧ advance s = { s with
        schedule := rest, faults := s.faults ++ [.unsupportedAccess a.addr a.size a.kind.isWrite] }
    ∧ (∀ n, .unsupportedAccess a.addr a.size a.kind.isWrite ∈ (advanceN n (advance s)).faults)
    ∧ (∀ i, decodeAccess s.params a ≠ .ok i)
    ∧ ∀ (key : BitVec 7) (v : Word) (i : Instr), key.extractLsb' 0 2 ≠ 0#2 → decodeKey key v ≠ .ok i

/-- 20_memory.md R52 with 00_scope.md R8: every aligned 32-bit access to the window executes, and is the read or
the write of the register at its offset. -/
def Obligations.SupportedAccessesExecute : Prop :=
  ∀ (s : State) (rest : List Event) (r : Reg),
    (s.schedule = .bus { addr := s.params.baseAddr + r.offset, size := 4, kind := .read } :: rest →
      ∃ t, step s = .next t ∧ step s = exec (readInstr r) { s with schedule := rest }
        ∧ t.readData = some (readReg r s) ∧ t.block = s.block)
    ∧ ∀ v, s.schedule = .bus { addr := s.params.baseAddr + r.offset, size := 4, kind := .write v } :: rest →
      ∃ t, step s = .next t ∧ step s = exec (writeInstr r v) { s with schedule := rest }

/-- 00_scope.md R8: a step stops only on a bus access: with a fault exactly when the access is one to the window
that R53 does not support, with a refusal exactly when no byte of it lies in the window. What counts as an
access to the window, and the refusal, are log entries 6 and 7. -/
def Obligations.StopsAreExactlyUnsupportedOrOutside : Prop :=
  ∀ s : State,
    (∀ f, step s = .fault f ↔ ∃ a rest, s.schedule = .bus a :: rest ∧ a.touchesWindow s.params = true
        ∧ (a.size ≠ 4 ∨ ((a.addr : Int) - (s.params.baseAddr : Int)) % 4 ≠ 0)
        ∧ f = .unsupportedAccess a.addr a.size a.kind.isWrite)
    ∧ (∀ q, step s = .refused q ↔ ∃ a rest, s.schedule = .bus a :: rest ∧ a.touchesWindow s.params = false
        ∧ q = .outsideWindow a.addr a.size)

/-- 20_memory.md R53, 70_reset_and_hazards.md R230: no step, not even a reset, clears the record of faulted
steps, and it grows exactly by the faults steps raise. -/
def Obligations.FaultRecordNeverCleared : Prop :=
  (∀ (n : Nat) (s : State), s.faults <+: (advanceN n s).faults)
  ∧ (∀ s f, step s = .fault f → (advance s).faults = s.faults ++ [f])
  ∧ ∀ s t, step s = .next t → t.faults = s.faults

/-- 40_register_access.md R118: `RD_CAPS` returns `P_DEN_BITS_MAX | (CARRY_RULE << 8)`, and it returns the same
for the life of the block, through every step and every reset. -/
def Obligations.CapsConstantForLife : Prop :=
  ∀ (n : Nat) (s : State),
    (∀ v, decodeKey 0x24#7 v = .ok .rdCaps)
    ∧ (advanceN n s).params = s.params
    ∧ exec .rdCaps (advanceN n s) = .next { advanceN n s with
        readData := some (BitVec.ofNat 32 s.params.denBitsMax
          ||| (if s.params.carryRule = .observed then 0x100#32 else 0#32)) }

/-! ### Invariants and whole-machine rules -/

/-- The invariant holds right after reset, for every legal value of the parameters and every schedule. -/
def Obligations.InvariantHoldsAfterReset : Prop :=
  State.reset.Inv ∧ ∀ (p : Params) (es : List Event), p.wf = true → (State.initial p es).Inv

/-- Every step keeps the invariant: the `STATUS` relations of 10_state.md R42; while `DONE = 1` the results are
those of `Solve` on the snapshot, in full; an error 1 to 4 is the one `Solve` gives; no denominator is 0. -/
def Obligations.EveryStepKeepsInvariant : Prop :=
  ∀ s t : State, s.Inv → step s = .next t → t.Inv

/-- 10_state.md R42: the `STATUS` relations in every reachable state. -/
def Obligations.StatusRelationsInReachableStates : Prop :=
  ∀ s : State, Reachable s →
    (s.block.status.busy = true → s.block.status.done = false ∧ s.block.status.err = false
      ∧ s.block.status.errCode = 0#3 ∧ s.block.status.path = 0#2
      ∧ s.block.status.neg = false ∧ s.block.status.intRange = false)
    ∧ (s.block.status.err = true ↔ s.block.status.errCode ≠ 0#3)
    ∧ (s.block.status.done = true → s.block.status.err = true → s.block.status.errCode = 5#3)
    ∧ s.block.status.errCode ≠ 6#3 ∧ s.block.status.errCode ≠ 7#3

/-- 10_state.md R29, 41_commands.md R142: `BUSY` rises only by a `SOLVE` written while idle, and falls only by
the completion or a reset. -/
def Obligations.BusyChangesOnlyBySolveCompletionReset : Prop :=
  ∀ s t : State, step s = .next t →
    (s.block.status.busy = false → t.block.status.busy = true →
      ∃ e rest, s.schedule = e :: rest ∧ e.IsSolve s.params)
    ∧ (s.block.status.busy = true → t.block.status.busy = false →
      s.EngineNext ∨ ∃ rest, s.schedule = .reset :: rest)

/-- 10_state.md R35, R36, R37: a step changes a result register only if it is a completion with a result or a
reset. -/
def Obligations.ResultsChangeOnlyByCompletionOrReset : Prop :=
  ∀ s t : State, step s = .next t →
    (t.block.resInt, t.block.resNum, t.block.resDen) ≠ (s.block.resInt, s.block.resNum, s.block.resDen) →
    (s.EngineNext ∧ s.block.status.busy = true ∧ ∃ d, solve s.params s.block.snap.inputs = .ok d)
    ∨ ∃ rest, s.schedule = .reset :: rest

/-- 10_state.md R40: but for a reset, only an accepted `SOLVE` writes the snapshot, with the input registers. -/
def Obligations.SnapshotWrittenOnlyByAcceptedSolve : Prop :=
  ∀ s t : State, step s = .next t → (∀ rest, s.schedule ≠ .reset :: rest) → t.block.snap ≠ s.block.snap →
    s.block.status.busy = false
    ∧ (∃ e rest, s.schedule = e :: rest ∧ e.IsSolve s.params)
    ∧ t.block.snap = { srcFreq := s.block.srcFreq, tgtFreq := s.block.tgtFreq, baseDiv := s.block.baseDiv
                       intBits := s.block.intBits, denBits := s.block.denBits }

/-- 41_commands.md R139, R142: a running solve ends, within the steps scheduled before it and one of its own.
That nothing scheduled leaves the step to the engine is log entry 2. -/
def Obligations.RunningSolveEnds : Prop :=
  ∀ s : State, s.block.status.busy = true →
    ∃ n, n ≤ s.schedule.length + 1 ∧ (advanceN n s).block.status.busy = false

/-- 60_exceptions.md R205: events that could fall in one cycle, in both orders: a completion with a `CTRL` write,
with an input register write, with a `STATUS` read; a reset with a completion, with any bus access. The reset and
completion clause equates whole states, so it also rests on log entry 10 (the snapshot a reset leaves, which R230 does
not specify) and on log entry 3 (the turn of an idle engine). -/
def Obligations.SimultaneousEventsInBothOrders : Prop :=
  (∀ (s : State) (rest : List Event) (v : Word), s.block.status.busy = true →
    let w := Event.bus (encodeAccess s.params (.wrCtrl v))
    advanceN 2 (s.withSchedule (w :: .engine :: rest)) = (complete s).withSchedule rest
    ∧ exec (.wrCtrl v) ((complete s).withSchedule rest) =
        .next (advanceN 2 (s.withSchedule (.engine :: w :: rest))))
  ∧ (∀ (s : State) (rest : List Event) (r : Reg) (v : Word), s.block.status.busy = true → r.isInput = true →
    let w := Event.bus (encodeAccess s.params (writeInstr r v))
    advanceN 2 (s.withSchedule (w :: .engine :: rest)) = advanceN 2 (s.withSchedule (.engine :: w :: rest)))
  ∧ (∀ (s : State) (rest : List Event), s.block.status.busy = true →
    let w := Event.bus (encodeAccess s.params .rdStatus)
    (advanceN 2 (s.withSchedule (w :: .engine :: rest))).readData = some s.block.status.word
    ∧ (advanceN 2 (s.withSchedule (.engine :: w :: rest))).readData = some (complete s).block.status.word
    ∧ (advanceN 2 (s.withSchedule (w :: .engine :: rest))).block
        = (advanceN 2 (s.withSchedule (.engine :: w :: rest))).block)
  ∧ (∀ (s : State) (rest : List Event), s.block.status.busy = true →
    advanceN 2 (s.withSchedule (.reset :: .engine :: rest))
        = advanceN 2 (s.withSchedule (.engine :: .reset :: rest))
    ∧ ∃ snap, (advanceN 2 (s.withSchedule (.reset :: .engine :: rest))).block = Block.reset s.params snap)
  ∧ ∀ (s : State) (rest : List Event) (i : Instr),
    let w := Event.bus (encodeAccess s.params i)
    exec i ((resetEvent s).withSchedule rest) = .next (advanceN 2 (s.withSchedule (.reset :: w :: rest)))
    ∧ ∃ snap, (advanceN 2 (s.withSchedule (w :: .reset :: rest))).block = Block.reset s.params snap

/-- 10_state.md R40, R43 (93_implementation_defined.md I14): no run can tell what an idle block's snapshot holds.
Two states that differ only there stay so through every number of steps, and every read returns the same. -/
def Obligations.IdleSnapshotIsUnobservable : Prop :=
  ∀ s t : State, SameButIdleSnapshot s t → ∀ n,
    SameButIdleSnapshot (advanceN n s) (advanceN n t)
    ∧ (advanceN n s).readData = (advanceN n t).readData
    ∧ ∀ r, readReg r (advanceN n s) = readReg r (advanceN n t)

/-- 70_reset_and_hazards.md R233: a `SOLVE` right after reset, before any input is written, completes with
`TARGET_ZERO`, whatever ran before the reset. -/
def Obligations.SolveAfterResetReportsTargetZero : Prop :=
  ∀ (s : State) (hi : BitVec 28) (rest : List Event),
    s.schedule = .reset :: .bus (encodeAccess s.params (.solve hi)) :: .engine :: rest →
    readReg .status (advanceN 3 s) = 0x14#32
    ∧ readReg .resInt (advanceN 3 s) = 0#32 ∧ readReg .resNum (advanceN 3 s) = 0#32
    ∧ readReg .resDen (advanceN 3 s) = 1#32

/-- 20_memory.md R60: after `STATUS` read `BUSY = 0` and `DONE = 1`, until a `SOLVE` is written or a reset
occurs, the result registers read as the result of the solve whose completion set `DONE`. -/
def Obligations.StatusThenResultsAreCoherent : Prop :=
  ∀ (s : State) (es rest : List Event), s.Inv → s.block.status.busy = false → s.block.status.done = true →
    s.schedule = es ++ rest → (∀ e ∈ es, e ≠ .reset ∧ ¬ e.IsSolve s.params) →
    ∃ d, solve s.params s.block.snap.inputs = .ok d ∧
      ∀ n, n ≤ es.length →
        (readReg .resInt (advanceN n s)).toNat = d.int
        ∧ (readReg .resNum (advanceN n s)).toNat = d.num
        ∧ (readReg .resDen (advanceN n s)).toNat = d.den

/-! ### Encoding -/

/-- 30_encoding.md R71 to R74: decoding the bytes of an operation gives it back, with every operand, and the
bytes after it. The byte form of a key and its data word is log entry 12. -/
def Obligations.DecodeOfEncode : Prop :=
  ∀ (i : Instr) (rest : List Byte), decode i.format (encode i ++ rest) = .ok (i, rest)

/-- Each byte string has one meaning: what decodes is the encoding of what it decodes to. -/
def Obligations.EncodeOfDecode : Prop :=
  ∀ (f : Format) (bs rest : List Byte) (i : Instr), decode f bs = .ok (i, rest) →
    i.format = f ∧ bs = encode i ++ rest

/-- 30_encoding.md R71, R72, R80: the access of an operation decodes to it, at every base address; the access of
a command decodes to the write to `CTRL` that carries its word. -/
def Obligations.AccessDecodesToItsOperation : Prop :=
  ∀ (p : Params) (i : Instr), decodeAccess p (encodeAccess p i) =
    .ok (match i.op with
      | .command code hi => .wrCtrl (hi ++ code)
      | .read r => readInstr r
      | .write r v => writeInstr r v)
    ∧ (∀ r, i.op = .read r → readInstr r = i) ∧ (∀ r v, i.op = .write r v → writeInstr r v = i)
    ∧ (∀ code hi, i.op = .command code hi → decodeCommand (hi ++ code) = i)

/-- A few words, written out from the tables of 30_encoding.md R72 and R74 and the programs of
95_test_vectors.md, decode to the operations they stand for. The byte form of a key and its data word is the model's
own, log entry 12. -/
def Obligations.WrittenWordsDecode : Prop :=
  decode .bus [0x40#8, 0x00#8, 0x68#8, 0x89#8, 0x09#8] = .ok (.wrSrcFreq 160000000#32, [])
  ∧ decode .bus [0x14#8] = .ok (.rdStatus, [])
  ∧ decode .bus [0x7C#8, 0xFF#8, 0xFF#8, 0xFF#8, 0xFF#8] = .ok (.wrRsvd3C 0xFFFFFFFF#32, [])
  ∧ decode .cmd [0x71#8, 0x56#8, 0x34#8, 0x12#8] = .ok (.solve 0x1234567#28, [])
  ∧ decode .cmd [0x02#8, 0x00#8, 0x00#8, 0x00#8] = .ok (.clear 0#28, [])
  ∧ decode .cmd [0xF0#8, 0xFF#8, 0xFF#8, 0xFF#8] = .ok (.nop 0xFFFFFFF#28, [])

/-- 30_encoding.md R76, R77: where each field stands in the `STATUS` and `CAPS` words, and that every other bit
is 0. -/
def Obligations.StatusAndCapsWordsByBit : Prop :=
  (∀ st : Status,
    st.word.getLsbD 0 = st.busy ∧ st.word.getLsbD 1 = st.done ∧ st.word.getLsbD 2 = st.err
    ∧ st.word.getLsbD 3 = false ∧ st.word.extractLsb' 4 3 = st.errCode ∧ st.word.getLsbD 7 = false
    ∧ st.word.extractLsb' 8 2 = st.path ∧ st.word.getLsbD 10 = st.neg ∧ st.word.getLsbD 11 = st.intRange
    ∧ st.word.extractLsb' 12 20 = 0#20)
  ∧ ∀ p : Params, p.wf = true →
    ((capsWord p).extractLsb' 0 8).toNat = p.denBitsMax
    ∧ (capsWord p).getLsbD 8 = decide (p.carryRule = .observed)
    ∧ (capsWord p).extractLsb' 9 23 = 0#23

/-- 30_encoding.md R82, 70_reset_and_hazards.md R234 (steps 3 and 4): the four writes of `CONFIG s, t, b, ib, db`
set the four input registers, whatever the state, and change nothing else. -/
def Obligations.ConfigSetsTheFourInputs : Prop :=
  ∀ (s : State) (f t b ib db : Nat) (rest : List Event),
    (AsmLine.config f t b ib db).wf = true → ib < 256 → db < 256 →
    s.schedule = programEvents s.params [.config f t b ib db] ++ rest →
    advanceN 4 s = { s with
      schedule := rest
      block := { s.block with
        srcFreq := BitVec.ofNat 32 f, tgtFreq := BitVec.ofNat 32 t, baseDiv := BitVec.ofNat 32 b
        intBits := BitVec.ofNat 8 ib, denBits := BitVec.ofNat 8 db } }

/-! ### The solve -/

/-- 60_exceptions.md R204, 42_solver.md R150 to R152: the first failing check, in this order, is the one
reported, and `CARRY_OVERFLOW` follows only a successful validation. -/
def Obligations.ErrorsReportedInPriorityOrder : Prop :=
  ∀ (p : Params) (x : Inputs),
    (x.tgtFreq = 0 → solve p x = .error .targetZero)
    ∧ (x.tgtFreq ≠ 0 → x.srcFreq = 0 → solve p x = .error .sourceZero)
    ∧ (x.tgtFreq ≠ 0 → x.srcFreq ≠ 0 →
        (x.denBits = 0 ∨ p.denBitsMax < x.denBits ∨ 32 < x.intBits
          ∨ (p.carryRule = .observed ∧ x.denBits = 1)) → solve p x = .error .badConstraints)
    ∧ (solve p x = .error .carryOverflow →
        x.tgtFreq ≠ 0 ∧ x.srcFreq ≠ 0 ∧ x.denBits ≠ 0 ∧ x.denBits ≤ p.denBitsMax ∧ x.intBits ≤ 32
        ∧ (p.carryRule = .observed → x.denBits ≠ 1))

/-- 42_solver.md R156, with the flags of R155 and R174: `FD = 0` gives `(B, 0, 1)` without a search. -/
def Obligations.ExactMatchReturnsBase : Prop :=
  ∀ (p : Params) (x : Inputs), x.Valid p → x.srcFreq = x.tgtFreq * x.baseDiv →
    solve p x = .ok { int := x.baseDiv, num := 0, den := 1, path := .exact, neg := false
                      intRange := decide (x.intBits < 32 ∧ 2 ^ x.intBits ≤ x.baseDiv) }

/-- 42_solver.md R157, R158: the strict carry test of each rule, stated on the rational `d = FD / T`; when it
fires the result is `(B + 1, 0, 1)`, or `CARRY_OVERFLOW` at the top of `u32`; when it does not, there is no
carry. -/
def Obligations.CarryFiresAboveThreshold : Prop :=
  ∀ (p : Params) (x : Inputs), x.Valid p → freqDiff x ≠ 0 →
    let dm : ℚ := (2 : ℚ) ^ x.denBits - 1
    let threshold : ℚ := match p.carryRule with
      | .doc => (dm - 1) / dm
      | .observed => (2 * dm - 1) / (2 * dm)
    ((freqDiff x : ℚ) / (x.tgtFreq : ℚ) > threshold →
      (x.baseDiv = 2 ^ 32 - 1 → solve p x = .error .carryOverflow)
      ∧ (x.baseDiv ≠ 2 ^ 32 - 1 → ∃ d, solve p x = .ok d ∧ d.int = x.baseDiv + 1 ∧ d.num = 0 ∧ d.den = 1
          ∧ d.path = .carry))
    ∧ ((freqDiff x : ℚ) / (x.tgtFreq : ℚ) ≤ threshold →
      ∃ d, solve p x = .ok d ∧ (d.path = .searchExact ∨ d.path = .searchBest))

/-- 42_solver.md R178: with `FD ≥ T` the carry fires under either rule, and the result is `B + 1` however far
`B` is from `S/T`. -/
def Obligations.FarBaseCarriesByOne : Prop :=
  ∀ (p : Params) (x : Inputs), x.Valid p → x.tgtFreq ≤ freqDiff x →
    (x.baseDiv = 2 ^ 32 - 1 → solve p x = .error .carryOverflow)
    ∧ (x.baseDiv ≠ 2 ^ 32 - 1 →
        ∃ d, solve p x = .ok d ∧ d.int = x.baseDiv + 1 ∧ d.num = 0 ∧ d.den = 1 ∧ d.path = .carry)

/-- 42_solver.md R155, R174: `NEG` is `S < T*B` and `INT_RANGE` is `IB < 32 and I >= 2^IB`, on every result. -/
def Obligations.FlagsOfEveryResult : Prop :=
  ∀ (p : Params) (x : Inputs) (d : Divider), solve p x = .ok d →
    (d.neg = true ↔ x.srcFreq < x.tgtFreq * x.baseDiv)
    ∧ (d.intRange = true ↔ x.intBits < 32 ∧ 2 ^ x.intBits ≤ d.int)

/-- 42_solver.md R165: the code of every path, the ranges of every result, by path, and that every number fits its
field. -/
def Obligations.ResultRangesByPath : Prop :=
  (Path.code .exact = 0#2 ∧ Path.code .carry = 1#2 ∧ Path.code .searchExact = 2#2 ∧ Path.code .searchBest = 3#2)
  ∧ ∀ (p : Params) (x : Inputs) (d : Divider), solve p x = .ok d →
    (d.path = .exact → d.int = x.baseDiv ∧ d.num = 0 ∧ d.den = 1)
    ∧ (d.path = .carry → d.int = x.baseDiv + 1 ∧ d.num = 0 ∧ d.den = 1)
    ∧ (d.path = .searchExact → d.int = x.baseDiv ∧ 1 ≤ d.num ∧ d.num < d.den ∧ 2 ≤ d.den
        ∧ d.den ≤ 2 ^ x.denBits - 1)
    ∧ (d.path = .searchBest → d.int = x.baseDiv ∧ d.num ≤ d.den ∧ (p.carryRule = .doc → d.num < d.den)
        ∧ 2 ≤ d.den ∧ d.den ≤ 2 ^ x.denBits - 1)
    ∧ 1 ≤ d.den ∧ d.den ≤ 2 ^ x.denBits - 1 ∧ d.num < 2 ^ x.denBits ∧ d.den < 2 ^ x.denBits
    ∧ (x.InRange → d.int < 2 ^ 32)

/-- 42_solver.md R166: under `DOC` every result with `D ≥ 2` has `N < D`; under `OBSERVED` the only exception
is `(2, 2)`, and it occurs. -/
def Obligations.NumeratorBelowDenominator : Prop :=
  (∀ (p : Params) (x : Inputs) (d : Divider), p.carryRule = .doc → solve p x = .ok d → 2 ≤ d.den → d.num < d.den)
  ∧ (∀ (p : Params) (x : Inputs) (d : Divider), p.carryRule = .observed → solve p x = .ok d → 2 ≤ d.den →
      d.num < d.den ∨ (d.num = 2 ∧ d.den = 2))
  ∧ ∃ (p : Params) (x : Inputs) (d : Divider), p.wf = true ∧ p.carryRule = .observed ∧ solve p x = .ok d
      ∧ d.num = d.den

/-- 42_solver.md R167: `N = 0` only with `D = 1` (paths `EXACT`, `CARRY`) or on `SEARCH_BEST` with `D = 2`; and a
remainder below `1/(2 D_max)` gives `(B, 0, 2)`. The converse is not claimed: `SEARCH_BEST` can also end with
`(1, 2)`. -/
def Obligations.ZeroNumeratorOnlyWithDenominatorOneOrTwo : Prop :=
  (∀ (p : Params) (x : Inputs) (d : Divider), solve p x = .ok d → d.num = 0 →
    (d.den = 1 ∧ (d.path = .exact ∨ d.path = .carry)) ∨ (d.den = 2 ∧ d.path = .searchBest))
  ∧ (∀ (p : Params) (x : Inputs), x.Valid p → 2 ≤ x.denBits → freqDiff x ≠ 0 →
      2 * dMax x.denBits * freqDiff x < x.tgtFreq →
      ∃ d, solve p x = .ok d ∧ d.int = x.baseDiv ∧ d.num = 0 ∧ d.den = 2 ∧ d.path = .searchBest)

/-- 42_solver.md R168: a search result is in lowest terms, except `(0, 2)` and, under `OBSERVED`, `(2, 2)`. -/
def Obligations.SearchResultsInLowestTerms : Prop :=
  ∀ (p : Params) (x : Inputs) (d : Divider), solve p x = .ok d →
    (d.path = .searchExact ∨ d.path = .searchBest) →
    Nat.gcd d.num d.den = 1 ∨ (d.num = 0 ∧ d.den = 2)
    ∨ (p.carryRule = .observed ∧ d.num = 2 ∧ d.den = 2)

/-- 42_solver.md R175: with `q = T / gcd(FD, T)`, a search finds the exact match `(q, FD / gcd(FD, T))` if
`q ≤ D_max`, and the best pair otherwise. -/
def Obligations.SearchPathByReducedDenominator : Prop :=
  ∀ (p : Params) (x : Inputs), x.ReachesSearch p →
    let g := Nat.gcd (freqDiff x) x.tgtFreq
    let q := x.tgtFreq / g
    2 ≤ q
    ∧ (q ≤ 2 ^ x.denBits - 1 → ∃ d, solve p x = .ok d ∧ d.path = .searchExact ∧ d.int = x.baseDiv
        ∧ d.den = q ∧ d.num = freqDiff x / g)
    ∧ (2 ^ x.denBits - 1 < q → ∃ d, solve p x = .ok d ∧ d.path = .searchBest ∧ d.int = x.baseDiv)

/-- 42_solver.md R160 to R164: a search that ends without an exact match returns the candidate of the smallest
cross-multiplied distance, each numerator rounded half up, and among equal distances the one of the smallest
denominator. -/
def Obligations.BestPairIsEarliestMinimum : Prop :=
  ∀ (p : Params) (x : Inputs) (d : Divider), solve p x = .ok d → d.path = .searchBest →
    let fd := freqDiff x
    let t := x.tgtFreq
    let num : Nat → Nat := fun a => (⌊(a : ℚ) * (fd : ℚ) / (t : ℚ) + 1 / 2⌋).toNat
    let dist : Nat → Int := fun a => |(t : Int) * (num a : Int) - (fd : Int) * (a : Int)|
    d.int = x.baseDiv ∧ d.num = num d.den ∧ 2 ≤ d.den ∧ d.den ≤ 2 ^ x.denBits - 1
    ∧ (∀ a, 2 ≤ a → a ≤ 2 ^ x.denBits - 1 → dist a ≠ 0)
    ∧ (∀ a, 2 ≤ a → a ≤ 2 ^ x.denBits - 1 → dist d.den ≤ dist a)
    ∧ (∀ a, 2 ≤ a → a < d.den → dist d.den < dist a)

/-- 42_solver.md R169, R170: on a search path the remainder error is at most half a unit and at most `FD`, each
multiplied out; the true error is the remainder error when `NEG = 0` and `FD + T*N/D` when `NEG = 1`; on the
carry path it is `|T - FD|` and `FD + T`. -/
def Obligations.ErrorOfResultByPathAndSign : Prop :=
  ∀ (p : Params) (x : Inputs) (d : Divider), solve p x = .ok d →
    let fd : Int := freqDiff x
    let t : Int := x.tgtFreq
    let trueError : Int := |t * ((d.int : Int) * (d.den : Int) + (d.num : Int)) - (x.srcFreq : Int) * (d.den : Int)|
    ((d.path = .searchExact ∨ d.path = .searchBest) →
      |t * (d.num : Int) - fd * (d.den : Int)| ≤ fd * (d.den : Int)
      ∧ 2 * |t * (d.num : Int) - fd * (d.den : Int)| ≤ t
      ∧ (d.num = 0 → |t * (d.num : Int) - fd * (d.den : Int)| = fd * (d.den : Int))
      ∧ (d.neg = false → trueError = |t * (d.num : Int) - fd * (d.den : Int)|)
      ∧ (d.neg = true → trueError = fd * (d.den : Int) + t * (d.num : Int)))
    ∧ (d.path = .carry →
      (d.neg = false → trueError = |t - fd|) ∧ (d.neg = true → trueError = fd + t))

/-- 42_solver.md R176: `IB` and the width limit affect only validation and `INT_RANGE`: two solves that agree on
`S`, `T`, `B`, `DB` and the carry rule, both with results, agree on `I`, `N`, `D` and `PATH`. -/
def Obligations.ResultIndependentOfIntBits : Prop :=
  ∀ (p q : Params) (x y : Inputs) (d e : Divider), p.carryRule = q.carryRule →
    x.srcFreq = y.srcFreq → x.tgtFreq = y.tgtFreq → x.baseDiv = y.baseDiv → x.denBits = y.denBits →
    solve p x = .ok d → solve q y = .ok e →
    d.int = e.int ∧ d.num = e.num ∧ d.den = e.den ∧ d.path = e.path ∧ d.neg = e.neg

/-- 42_solver.md R177: with `DB = 1` under `DOC` every `FD > 0` carries and nothing is searched; under `OBSERVED` the
constraints forbid `DB = 1`. -/
def Obligations.OneBitDenominatorNeverSearches : Prop :=
  (∀ (p : Params) (x : Inputs), p.carryRule = .observed → x.denBits = 1 → ¬ x.Valid p)
  ∧ ∀ (p : Params) (x : Inputs), x.Valid p → p.carryRule = .doc → x.denBits = 1 →
    (freqDiff x = 0 → ∃ d, solve p x = .ok d ∧ d.int = x.baseDiv ∧ d.num = 0 ∧ d.den = 1 ∧ d.path = .exact)
    ∧ (freqDiff x ≠ 0 → x.baseDiv ≠ 2 ^ 32 - 1 →
        ∃ d, solve p x = .ok d ∧ d.int = x.baseDiv + 1 ∧ d.num = 0 ∧ d.den = 1 ∧ d.path = .carry)
    ∧ (freqDiff x ≠ 0 → x.baseDiv = 2 ^ 32 - 1 → solve p x = .error .carryOverflow)

/-- 42_solver.md R179: under `OBSERVED` a remainder above the `DOC` threshold and not above the `OBSERVED` one is
searched, where `DOC` carries; the result can be `(B, 2, 2)`, as for `S = 251, T = 126, B = 1` and
`S = 1099, T = 100, B = 10`. -/
def Obligations.ObservedRuleSearchesTheBand : Prop :=
  (∀ (p : Params) (x : Inputs), x.Valid p → p.carryRule = .observed → freqDiff x ≠ 0 →
    (dMax x.denBits - 1) * x.tgtFreq < freqDiff x * dMax x.denBits →
    freqDiff x * (2 * dMax x.denBits) ≤ (2 * dMax x.denBits - 1) * x.tgtFreq →
    (∃ d, solve p x = .ok d ∧ (d.path = .searchExact ∨ d.path = .searchBest))
    ∧ carries .doc (freqDiff x) x.tgtFreq (dMax x.denBits) = true)
  ∧ ∀ p : Params, p.wf = true → 6 ≤ p.denBitsMax → p.carryRule = .observed →
    solve p { srcFreq := 251, tgtFreq := 126, baseDiv := 1, intBits := 32, denBits := 6 }
      = .ok { int := 1, num := 2, den := 2, path := .searchBest, neg := false, intRange := false }
    ∧ solve p { srcFreq := 1099, tgtFreq := 100, baseDiv := 10, intBits := 32, denBits := 6 }
      = .ok { int := 10, num := 2, den := 2, path := .searchBest, neg := false, intRange := false }

/-- 42_solver.md R173: the widths that hold every intermediate value of a valid solve. -/
def Obligations.IntermediateWidthsSuffice : Prop :=
  ∀ (p : Params) (x : Inputs), p.wf = true → x.InRange → x.Valid p →
    x.tgtFreq * x.baseDiv ≤ 2 ^ 64 - 2 ^ 33 + 1
    ∧ freqDiff x ≤ 2 ^ 64 - 2 ^ 33
    ∧ freqDiff x * 2 * dMax x.denBits < 2 ^ 81
    ∧ (x.ReachesSearch p → 1 ≤ freqDiff x ∧ freqDiff x ≤ x.tgtFreq - 1
        ∧ ∀ a, 2 ≤ a → a ≤ dMax x.denBits →
            2 * a * freqDiff x + x.tgtFreq < 2 ^ 50 ∧ freqDiff x * a < 2 ^ 48
            ∧ x.tgtFreq * roundNum (freqDiff x) x.tgtFreq a < 2 ^ 48
            ∧ crossDist (freqDiff x) x.tgtFreq a (roundNum (freqDiff x) x.tgtFreq a) < 2 ^ 48)
end

