-- ==== Sys2Proof/Laws/Decode.lean ====
section
/-! SUPPORT. Laws of the decoder and the encoder. -/

namespace Sys2Proof

/-! ### Registers and fields -/

@[simp] theorem Reg.ofSel_sel (r : Reg) : Reg.ofSel r.sel = r := by cases r <;> rfl

@[simp] theorem Reg.sel_ofSel (x : BitVec 4) : (Reg.ofSel x).sel = x := by
  revert x; decide

theorem Reg.offset_lt (r : Reg) : r.offset < 64 := by cases r <;> decide

theorem Reg.offset_mod (r : Reg) : r.offset % 4 = 0 := by cases r <;> decide

@[simp] theorem readInstr_op (r : Reg) : (readInstr r).op = .read r := by cases r <;> rfl

@[simp] theorem writeInstr_op (r : Reg) (v : Word) : (writeInstr r v).op = .write r v := by cases r <;> rfl

@[simp] theorem commandInstr_op (code : BitVec 4) (hi : BitVec 28) :
    (commandInstr code hi).op = .command code hi := by
  have h : ∀ c : BitVec 4, (commandInstr c hi).op = .command c hi := by
    intro c
    obtain ⟨⟨n, hn⟩⟩ := c
    interval_cases n <;> rfl
  exact h code

/-- An operation is its fields. -/
@[simp] theorem Instr.op_instr (i : Instr) : i.op.instr = i := by cases i <;> rfl

/-- Every combination of fields is an operation. -/
@[simp] theorem Op.instr_op (o : Op) : o.instr.op = o := by
  cases o <;> simp [Op.instr]

/-- Every operation is a read, a write or a command (30_encoding.md R84). -/
theorem Instr.op_cases (i : Instr) :
    (∃ r, i = readInstr r) ∨ (∃ r v, i = writeInstr r v) ∨ ∃ code hi, i = commandInstr code hi := by
  have h := i.op_instr
  cases ho : i.op with
  | read r => exact .inl ⟨r, by rw [← h, ho]; rfl⟩
  | write r v => exact .inr (.inl ⟨r, v, by rw [← h, ho]; rfl⟩)
  | command code hi => exact .inr (.inr ⟨code, hi, by rw [← h, ho]; rfl⟩)

/-! ### Byte lanes (20_memory.md R50) -/

/-- The four lanes of a word make it up again. -/
@[simp] theorem wordOfBytes_lanes (w : Word) :
    wordOfBytes (lane w 0) (lane w 1) (lane w 2) (lane w 3) = w := by
  apply BitVec.eq_of_getLsbD_eq
  intro k hk
  simp only [wordOfBytes, lane, BitVec.getLsbD_append, BitVec.getLsbD_extractLsb']
  split
  · simp_all
  · split
    · next h1 h2 => simp [h2, show 8 * 1 + (k - 8) = k by omega]
    · split
      · next h1 h2 h3 => simp [h3, show 8 * 2 + (k - 8 - 8) = k by omega]
      · next h1 h2 h3 =>
        simp [show k - 8 - 8 - 8 < 8 by omega, show 8 * 3 + (k - 8 - 8 - 8) = k by omega]

/-! ### Keys (30_encoding.md R71, R72) -/

@[simp] theorem busKey_low (w : Bool) (r : Reg) : (busKey w r).extractLsb' 0 2 = 0#2 := by
  cases w <;> cases r <;> decide

@[simp] theorem busKey_sel (w : Bool) (r : Reg) : (busKey w r).extractLsb' 2 4 = r.sel := by
  cases w <;> cases r <;> decide

@[simp] theorem busKey_write (w : Bool) (r : Reg) : (busKey w r).getLsbD 6 = w := by
  cases w <;> cases r <;> decide

/-- A register's read key decodes to its read. -/
@[simp] theorem decodeKey_read (r : Reg) (v : Word) : decodeKey (busKey false r) v = .ok (readInstr r) := by
  unfold decodeKey
  rw [busKey_low, busKey_sel, busKey_write, Reg.ofSel_sel]
  rfl

/-- A register's write key decodes to its write. -/
@[simp] theorem decodeKey_write (r : Reg) (v : Word) : decodeKey (busKey true r) v = .ok (writeInstr r v) := by
  unfold decodeKey
  rw [busKey_low, busKey_sel, busKey_write, Reg.ofSel_sel]
  rfl

/-- What a key decodes to is a read or a write of the register it selects, and its low bits are 00. -/
theorem decodeKey_ok {key : BitVec 7} {v : Word} {i : Instr} (h : decodeKey key v = .ok i) :
    key.extractLsb' 0 2 = 0#2 ∧
      ((key.getLsbD 6 = true ∧ i = writeInstr (Reg.ofSel (key.extractLsb' 2 4)) v)
      ∨ (key.getLsbD 6 = false ∧ i = readInstr (Reg.ofSel (key.extractLsb' 2 4)))) := by
  unfold decodeKey at h
  split at h
  · simp at h
  · next hlow =>
    refine ⟨by simpa using hlow, ?_⟩
    split at h
    · next hw => exact .inl ⟨hw, by simpa using h.symm⟩
    · next hw => exact .inr ⟨by simpa using hw, by simpa using h.symm⟩

/-- What an access decodes to is a read, or a write of its data word. -/
theorem decodeAccess_ok {p : Params} {a : Access} {i : Instr} (h : decodeAccess p a = .ok i) :
    a.touchesWindow p = true ∧ a.unsupported p = false ∧
      ((∃ r, i = readInstr r) ∨ ∃ r, i = writeInstr r a.kind.data) := by
  unfold decodeAccess at h
  split at h
  · simp at h
  · next hw =>
    split at h
    · simp at h
    · next hu =>
      refine ⟨by simpa using hw, by simpa using hu, ?_⟩
      obtain ⟨-, ⟨-, rfl⟩ | ⟨-, rfl⟩⟩ := decodeKey_ok h
      · exact .inr ⟨_, rfl⟩
      · exact .inl ⟨_, rfl⟩

/-- `W` and the offset, in seven bits, are the register's key. -/
theorem busKey_eq_offset (w : Bool) (r : Reg) :
    BitVec.ofBool w ++ BitVec.ofInt 6 (r.offset : Int) = busKey w r := by
  cases w <;> cases r <;> decide

/-- The key of an aligned access inside the window (R71). -/
theorem Access.key_at (p : Params) (k : AccessKind) (r : Reg) :
    ({ addr := p.baseAddr + r.offset, size := 4, kind := k } : Access).key p = busKey k.isWrite r := by
  have hoff : ({ addr := p.baseAddr + r.offset, size := 4, kind := k } : Access).offset p = (r.offset : Int) := by
    simp [Access.offset]
  unfold Access.key
  rw [hoff, busKey_eq_offset]

/-- An aligned 32-bit access inside the window is supported and decodes by its key (20_memory.md R52). -/
theorem decodeAccess_at (p : Params) (k : AccessKind) (r : Reg) :
    decodeAccess p { addr := p.baseAddr + r.offset, size := 4, kind := k }
      = decodeKey (busKey k.isWrite r) k.data := by
  have hlt := r.offset_lt
  have hmod := r.offset_mod
  unfold decodeAccess
  rw [Access.key_at]
  have h1 : ({ addr := p.baseAddr + r.offset, size := 4, kind := k } : Access).touchesWindow p = true := by
    simp only [Access.touchesWindow, decide_eq_true_eq]; omega
  have h2 : ({ addr := p.baseAddr + r.offset, size := 4, kind := k } : Access).unsupported p = false := by
    simp only [Access.unsupported, Access.offset, Nat.cast_add, decide_eq_false_iff_not, not_or, not_not]
    exact ⟨trivial, by omega⟩
  simp [h1, h2]

@[simp] theorem decodeAccess_read (p : Params) (r : Reg) :
    decodeAccess p { addr := p.baseAddr + r.offset, size := 4, kind := .read } = .ok (readInstr r) := by
  rw [decodeAccess_at]; exact decodeKey_read r _

@[simp] theorem decodeAccess_write (p : Params) (r : Reg) (v : Word) :
    decodeAccess p { addr := p.baseAddr + r.offset, size := 4, kind := .write v } = .ok (writeInstr r v) := by
  rw [decodeAccess_at]; exact decodeKey_write r v

/-! ### Commands (30_encoding.md R73, R74) -/

/-- What decoding an access can answer: no byte of the window, not supported, or an operation (R52, R53). -/
theorem decodeAccess_cases (p : Params) (a : Access) :
    (a.touchesWindow p = false ∧ decodeAccess p a = .error .outsideWindow)
    ∨ (a.touchesWindow p = true ∧ a.unsupported p = true ∧ decodeAccess p a = .error .unsupported)
    ∨ (a.touchesWindow p = true ∧ a.unsupported p = false ∧ ∃ i, decodeAccess p a = .ok i) := by
  unfold decodeAccess
  cases hw : a.touchesWindow p
  · simp
  · cases hu : a.unsupported p
    · have hk : (a.key p).extractLsb' 0 2 = 0#2 := by
        simp only [Access.touchesWindow, decide_eq_true_eq] at hw
        simp only [Access.unsupported, decide_eq_false_iff_not, not_or, not_not] at hu
        have hb : 0 ≤ a.offset p ∧ a.offset p < 64 := by
          simp only [Access.offset] at *; omega
        obtain ⟨n, hn⟩ := Int.eq_ofNat_of_zero_le hb.1
        have hmod : n % 4 = 0 := by omega
        have hlt : n < 64 := by omega
        simp only [Access.key, hn]
        cases a.kind.isWrite <;> interval_cases n <;> first | omega | decide
      simp only [Bool.not_true, Bool.false_eq_true, ↓reduceIte, true_and, decodeKey, hk, ne_eq,
        not_true_eq_false]
      simp only [false_and, false_or, reduceCtorEq]
      split <;> exact ⟨_, rfl⟩
    · simp

/-- A command's word, bit by bit: the code below the ignored bits. -/
theorem commandWord_getLsbD (code : BitVec 4) (hi : BitVec 28) (k : Nat) :
    (commandWord code hi).getLsbD k = if k < 4 then code.getLsbD k else hi.getLsbD (k - 4) :=
  (BitVec.getLsbD_append (x := hi) (y := code) (i := k)).trans (by simp)

@[simp] theorem commandWord_code (code : BitVec 4) (hi : BitVec 28) :
    (commandWord code hi).extractLsb' 0 4 = code := by
  apply BitVec.eq_of_getLsbD_eq
  intro k hk
  rw [BitVec.getLsbD_extractLsb', commandWord_getLsbD]
  simp [hk]

@[simp] theorem commandWord_hi (code : BitVec 4) (hi : BitVec 28) :
    (commandWord code hi).extractLsb' 4 28 = hi := by
  apply BitVec.eq_of_getLsbD_eq
  intro k hk
  rw [BitVec.getLsbD_extractLsb', commandWord_getLsbD]
  simp [hk]

/-- A command's word decodes to it. -/
@[simp] theorem decodeCommand_commandWord (code : BitVec 4) (hi : BitVec 28) :
    decodeCommand (commandWord code hi) = commandInstr code hi := by
  simp [decodeCommand]

/-! ### The opcode table (30_encoding.md R84) -/

/-- One operation of each row of the opcode table, in its order. -/
def tableInstrs : List Instr :=
  ([Reg.srcFreq, .tgtFreq, .baseDiv, .constraints, .ctrl, .status, .resInt, .resNum, .resDen, .caps,
    .rsvd28, .rsvd2C, .rsvd30, .rsvd34, .rsvd38, .rsvd3C].flatMap fun r => [readInstr r, writeInstr r 0#32])
  ++ (List.range 16).map fun c => commandInstr (BitVec.ofNat 4 c) 0#28

/-- The table has 48 rows. -/
theorem tableInstrs_length : tableInstrs.length = 48 := by decide

/-- Two rows can match one word of one format. -/
def TableRow.overlaps (a b : TableRow) : Bool :=
  decide (a.format = b.format) && decide (a.pattern &&& b.mask = b.pattern &&& a.mask)

/-- No two rows of one format match the same word. -/
theorem tableRows_disjoint :
    (tableInstrs.map Instr.row).Pairwise fun a b => a.overlaps b = false := by decide +kernel

end Sys2Proof
end

