-- ==== Sys2Proof/Laws/State.lean ====
section
/-! SUPPORT. One lemma per field per update of the state, each true by `rfl`. -/

namespace Sys2Proof.Machine

@[simp] theorem State.withBlock_params (s : State) (b : Block) : (s.withBlock b).params = s.params := rfl
@[simp] theorem State.withBlock_block (s : State) (b : Block) : (s.withBlock b).block = b := rfl
@[simp] theorem State.withBlock_schedule (s : State) (b : Block) : (s.withBlock b).schedule = s.schedule := rfl
@[simp] theorem State.withBlock_readData (s : State) (b : Block) : (s.withBlock b).readData = s.readData := rfl
@[simp] theorem State.withBlock_faults (s : State) (b : Block) : (s.withBlock b).faults = s.faults := rfl
@[simp] theorem State.withBlock_free (s : State) (b : Block) : (s.withBlock b).free = s.free := rfl

@[simp] theorem State.withStatus_params (s : State) (st : Status) : (s.withStatus st).params = s.params := rfl
@[simp] theorem State.withStatus_block_srcFreq (s : State) (st : Status) : (s.withStatus st).block.srcFreq = s.block.srcFreq := rfl
@[simp] theorem State.withStatus_block_tgtFreq (s : State) (st : Status) : (s.withStatus st).block.tgtFreq = s.block.tgtFreq := rfl
@[simp] theorem State.withStatus_block_baseDiv (s : State) (st : Status) : (s.withStatus st).block.baseDiv = s.block.baseDiv := rfl
@[simp] theorem State.withStatus_block_intBits (s : State) (st : Status) : (s.withStatus st).block.intBits = s.block.intBits := rfl
@[simp] theorem State.withStatus_block_denBits (s : State) (st : Status) : (s.withStatus st).block.denBits = s.block.denBits := rfl
@[simp] theorem State.withStatus_block_status (s : State) (st : Status) : (s.withStatus st).block.status = st := rfl
@[simp] theorem State.withStatus_block_resInt (s : State) (st : Status) : (s.withStatus st).block.resInt = s.block.resInt := rfl
@[simp] theorem State.withStatus_block_resNum (s : State) (st : Status) : (s.withStatus st).block.resNum = s.block.resNum := rfl
@[simp] theorem State.withStatus_block_resDen (s : State) (st : Status) : (s.withStatus st).block.resDen = s.block.resDen := rfl
@[simp] theorem State.withStatus_block_snap (s : State) (st : Status) : (s.withStatus st).block.snap = s.block.snap := rfl
@[simp] theorem State.withStatus_schedule (s : State) (st : Status) : (s.withStatus st).schedule = s.schedule := rfl
@[simp] theorem State.withStatus_readData (s : State) (st : Status) : (s.withStatus st).readData = s.readData := rfl
@[simp] theorem State.withStatus_faults (s : State) (st : Status) : (s.withStatus st).faults = s.faults := rfl
@[simp] theorem State.withStatus_free (s : State) (st : Status) : (s.withStatus st).free = s.free := rfl

@[simp] theorem State.withSnap_params (s : State) (sn : Snapshot) : (s.withSnap sn).params = s.params := rfl
@[simp] theorem State.withSnap_block_srcFreq (s : State) (sn : Snapshot) : (s.withSnap sn).block.srcFreq = s.block.srcFreq := rfl
@[simp] theorem State.withSnap_block_tgtFreq (s : State) (sn : Snapshot) : (s.withSnap sn).block.tgtFreq = s.block.tgtFreq := rfl
@[simp] theorem State.withSnap_block_baseDiv (s : State) (sn : Snapshot) : (s.withSnap sn).block.baseDiv = s.block.baseDiv := rfl
@[simp] theorem State.withSnap_block_intBits (s : State) (sn : Snapshot) : (s.withSnap sn).block.intBits = s.block.intBits := rfl
@[simp] theorem State.withSnap_block_denBits (s : State) (sn : Snapshot) : (s.withSnap sn).block.denBits = s.block.denBits := rfl
@[simp] theorem State.withSnap_block_status (s : State) (sn : Snapshot) : (s.withSnap sn).block.status = s.block.status := rfl
@[simp] theorem State.withSnap_block_resInt (s : State) (sn : Snapshot) : (s.withSnap sn).block.resInt = s.block.resInt := rfl
@[simp] theorem State.withSnap_block_resNum (s : State) (sn : Snapshot) : (s.withSnap sn).block.resNum = s.block.resNum := rfl
@[simp] theorem State.withSnap_block_resDen (s : State) (sn : Snapshot) : (s.withSnap sn).block.resDen = s.block.resDen := rfl
@[simp] theorem State.withSnap_block_snap (s : State) (sn : Snapshot) : (s.withSnap sn).block.snap = sn := rfl
@[simp] theorem State.withSnap_schedule (s : State) (sn : Snapshot) : (s.withSnap sn).schedule = s.schedule := rfl
@[simp] theorem State.withSnap_readData (s : State) (sn : Snapshot) : (s.withSnap sn).readData = s.readData := rfl
@[simp] theorem State.withSnap_faults (s : State) (sn : Snapshot) : (s.withSnap sn).faults = s.faults := rfl
@[simp] theorem State.withSnap_free (s : State) (sn : Snapshot) : (s.withSnap sn).free = s.free := rfl

@[simp] theorem State.withResult_params (s : State) (i n d : Word) : (s.withResult i n d).params = s.params := rfl
@[simp] theorem State.withResult_block_srcFreq (s : State) (i n d : Word) : (s.withResult i n d).block.srcFreq = s.block.srcFreq := rfl
@[simp] theorem State.withResult_block_tgtFreq (s : State) (i n d : Word) : (s.withResult i n d).block.tgtFreq = s.block.tgtFreq := rfl
@[simp] theorem State.withResult_block_baseDiv (s : State) (i n d : Word) : (s.withResult i n d).block.baseDiv = s.block.baseDiv := rfl
@[simp] theorem State.withResult_block_intBits (s : State) (i n d : Word) : (s.withResult i n d).block.intBits = s.block.intBits := rfl
@[simp] theorem State.withResult_block_denBits (s : State) (i n d : Word) : (s.withResult i n d).block.denBits = s.block.denBits := rfl
@[simp] theorem State.withResult_block_status (s : State) (i n d : Word) : (s.withResult i n d).block.status = s.block.status := rfl
@[simp] theorem State.withResult_block_resInt (s : State) (i n d : Word) : (s.withResult i n d).block.resInt = i := rfl
@[simp] theorem State.withResult_block_resNum (s : State) (i n d : Word) : (s.withResult i n d).block.resNum = n := rfl
@[simp] theorem State.withResult_block_resDen (s : State) (i n d : Word) : (s.withResult i n d).block.resDen = d := rfl
@[simp] theorem State.withResult_block_snap (s : State) (i n d : Word) : (s.withResult i n d).block.snap = s.block.snap := rfl
@[simp] theorem State.withResult_schedule (s : State) (i n d : Word) : (s.withResult i n d).schedule = s.schedule := rfl
@[simp] theorem State.withResult_readData (s : State) (i n d : Word) : (s.withResult i n d).readData = s.readData := rfl
@[simp] theorem State.withResult_faults (s : State) (i n d : Word) : (s.withResult i n d).faults = s.faults := rfl
@[simp] theorem State.withResult_free (s : State) (i n d : Word) : (s.withResult i n d).free = s.free := rfl

@[simp] theorem State.respond_params (s : State) (v : Word) : (s.respond v).params = s.params := rfl
@[simp] theorem State.respond_block (s : State) (v : Word) : (s.respond v).block = s.block := rfl
@[simp] theorem State.respond_schedule (s : State) (v : Word) : (s.respond v).schedule = s.schedule := rfl
@[simp] theorem State.respond_readData (s : State) (v : Word) : (s.respond v).readData = some v := rfl
@[simp] theorem State.respond_faults (s : State) (v : Word) : (s.respond v).faults = s.faults := rfl
@[simp] theorem State.respond_free (s : State) (v : Word) : (s.respond v).free = s.free := rfl

@[simp] theorem State.withSchedule_params (s : State) (es : List Event) : (s.withSchedule es).params = s.params := rfl
@[simp] theorem State.withSchedule_block (s : State) (es : List Event) : (s.withSchedule es).block = s.block := rfl
@[simp] theorem State.withSchedule_schedule (s : State) (es : List Event) : (s.withSchedule es).schedule = es := rfl
@[simp] theorem State.withSchedule_readData (s : State) (es : List Event) : (s.withSchedule es).readData = s.readData := rfl
@[simp] theorem State.withSchedule_faults (s : State) (es : List Event) : (s.withSchedule es).faults = s.faults := rfl
@[simp] theorem State.withSchedule_free (s : State) (es : List Event) : (s.withSchedule es).free = s.free := rfl

@[simp] theorem recordFault_params (f : Fault) (s : State) : (recordFault f s).params = s.params := rfl
@[simp] theorem recordFault_block (f : Fault) (s : State) : (recordFault f s).block = s.block := rfl
@[simp] theorem recordFault_schedule (f : Fault) (s : State) : (recordFault f s).schedule = s.schedule := rfl
@[simp] theorem recordFault_readData (f : Fault) (s : State) : (recordFault f s).readData = s.readData := rfl
@[simp] theorem recordFault_faults (f : Fault) (s : State) : (recordFault f s).faults = s.faults ++ [f] := rfl
@[simp] theorem recordFault_free (f : Fault) (s : State) : (recordFault f s).free = s.free := rfl

@[simp] theorem resetEvent_params (s : State) : (resetEvent s).params = s.params := rfl
@[simp] theorem resetEvent_block (s : State) : (resetEvent s).block = Block.reset s.params (freeSnapshot s.free) := rfl
@[simp] theorem resetEvent_schedule (s : State) : (resetEvent s).schedule = s.schedule := rfl
@[simp] theorem resetEvent_readData (s : State) : (resetEvent s).readData = s.readData := rfl
@[simp] theorem resetEvent_faults (s : State) : (resetEvent s).faults = s.faults := rfl
@[simp] theorem resetEvent_free (s : State) : (resetEvent s).free = s.free + 3 := rfl

@[simp] theorem State.withSchedule_self (s : State) : s.withSchedule s.schedule = s := rfl

@[simp] theorem State.withSchedule_withSchedule (s : State) (es fs : List Event) :
    (s.withSchedule es).withSchedule fs = s.withSchedule fs := rfl

@[simp] theorem Status.clear_busy : (Status.clear).busy = false := rfl
@[simp] theorem Status.clear_done : (Status.clear).done = false := rfl
@[simp] theorem Status.clear_err : (Status.clear).err = false := rfl
@[simp] theorem Status.clear_errCode : (Status.clear).errCode = 0#3 := rfl
@[simp] theorem Status.clear_path : (Status.clear).path = 0#2 := rfl
@[simp] theorem Status.clear_neg : (Status.clear).neg = false := rfl
@[simp] theorem Status.clear_intRange : (Status.clear).intRange = false := rfl

@[simp] theorem Status.solving_busy : (Status.solving).busy = true := rfl
@[simp] theorem Status.solving_done : (Status.solving).done = false := rfl
@[simp] theorem Status.solving_err : (Status.solving).err = false := rfl
@[simp] theorem Status.solving_errCode : (Status.solving).errCode = 0#3 := rfl
@[simp] theorem Status.solving_path : (Status.solving).path = 0#2 := rfl
@[simp] theorem Status.solving_neg : (Status.solving).neg = false := rfl
@[simp] theorem Status.solving_intRange : (Status.solving).intRange = false := rfl

@[simp] theorem Status.result_busy (p : Path) (n r : Bool) : (Status.result p n r).busy = false := rfl
@[simp] theorem Status.result_done (p : Path) (n r : Bool) : (Status.result p n r).done = true := rfl
@[simp] theorem Status.result_err (p : Path) (n r : Bool) : (Status.result p n r).err = false := rfl
@[simp] theorem Status.result_errCode (p : Path) (n r : Bool) : (Status.result p n r).errCode = 0#3 := rfl
@[simp] theorem Status.result_path (p : Path) (n r : Bool) : (Status.result p n r).path = p.code := rfl
@[simp] theorem Status.result_neg (p : Path) (n r : Bool) : (Status.result p n r).neg = n := rfl
@[simp] theorem Status.result_intRange (p : Path) (n r : Bool) : (Status.result p n r).intRange = r := rfl

@[simp] theorem Status.rejected_busy (e : SolveError) : (Status.rejected e).busy = false := rfl
@[simp] theorem Status.rejected_done (e : SolveError) : (Status.rejected e).done = false := rfl
@[simp] theorem Status.rejected_err (e : SolveError) : (Status.rejected e).err = true := rfl
@[simp] theorem Status.rejected_errCode (e : SolveError) : (Status.rejected e).errCode = e.code := rfl
@[simp] theorem Status.rejected_path (e : SolveError) : (Status.rejected e).path = 0#2 := rfl
@[simp] theorem Status.rejected_neg (e : SolveError) : (Status.rejected e).neg = false := rfl
@[simp] theorem Status.rejected_intRange (e : SolveError) : (Status.rejected e).intRange = false := rfl

@[simp] theorem Status.badCommand_busy (st : Status) : (st.badCommand).busy = st.busy := rfl
@[simp] theorem Status.badCommand_done (st : Status) : (st.badCommand).done = st.done := rfl
@[simp] theorem Status.badCommand_err (st : Status) : (st.badCommand).err = true := rfl
@[simp] theorem Status.badCommand_errCode (st : Status) : (st.badCommand).errCode = badCommandCode := rfl
@[simp] theorem Status.badCommand_path (st : Status) : (st.badCommand).path = st.path := rfl
@[simp] theorem Status.badCommand_neg (st : Status) : (st.badCommand).neg = st.neg := rfl
@[simp] theorem Status.badCommand_intRange (st : Status) : (st.badCommand).intRange = st.intRange := rfl

@[simp] theorem Block.reset_srcFreq (p : Params) (sn : Snapshot) : (Block.reset p sn).srcFreq = 0#32 := rfl
@[simp] theorem Block.reset_tgtFreq (p : Params) (sn : Snapshot) : (Block.reset p sn).tgtFreq = 0#32 := rfl
@[simp] theorem Block.reset_baseDiv (p : Params) (sn : Snapshot) : (Block.reset p sn).baseDiv = 0#32 := rfl
@[simp] theorem Block.reset_intBits (p : Params) (sn : Snapshot) : (Block.reset p sn).intBits = 32#8 := rfl
@[simp] theorem Block.reset_denBits (p : Params) (sn : Snapshot) : (Block.reset p sn).denBits = BitVec.ofNat 8 p.denBitsMax := rfl
@[simp] theorem Block.reset_status (p : Params) (sn : Snapshot) : (Block.reset p sn).status = Status.clear := rfl
@[simp] theorem Block.reset_resInt (p : Params) (sn : Snapshot) : (Block.reset p sn).resInt = 0#32 := rfl
@[simp] theorem Block.reset_resNum (p : Params) (sn : Snapshot) : (Block.reset p sn).resNum = 0#32 := rfl
@[simp] theorem Block.reset_resDen (p : Params) (sn : Snapshot) : (Block.reset p sn).resDen = 1#32 := rfl
@[simp] theorem Block.reset_snap (p : Params) (sn : Snapshot) : (Block.reset p sn).snap = sn := rfl

end Sys2Proof.Machine
end

