-- ==== Sys2Proof/Laws/Ops.lean ====
section
/-! SUPPORT. What each shared operation and each meaning can do, said once. -/

namespace Sys2Proof.Machine

/-! ### The meanings by format -/

/-- A read's meaning is the bus read of its register. -/
@[simp] theorem exec_readInstr (r : Reg) (s : State) : exec (readInstr r) s = .next (busRead r s) := by
  cases r <;> rfl

/-- A write's meaning is the bus write of its register. -/
@[simp] theorem exec_writeInstr (r : Reg) (v : Word) (s : State) :
    exec (writeInstr r v) s = .next (busWrite r v s) := by
  cases r <;> rfl

/-- A command's meaning is that command, dropped while busy. -/
@[simp] theorem exec_commandInstr (code : BitVec 4) (hi : BitVec 28) (s : State) :
    exec (commandInstr code hi) s = .next (whileIdle (Command.ofCode code) s) := by
  have h : ∀ c : BitVec 4, exec (commandInstr c hi) s = .next (whileIdle (Command.ofCode c) s) := by
    intro c
    obtain ⟨⟨n, hn⟩⟩ := c
    interval_cases n <;> rfl
  exact h code

/-- Every meaning answers a next state. -/
theorem exec_next (i : Instr) (s : State) : ∃ t, exec i s = .next t := by
  rcases i.op_cases with ⟨r, rfl⟩ | ⟨r, v, rfl⟩ | ⟨code, hi, rfl⟩ <;> simp

/-! ### Reads -/

@[simp] theorem busRead_block (r : Reg) (s : State) : (busRead r s).block = s.block := rfl
@[simp] theorem busRead_params (r : Reg) (s : State) : (busRead r s).params = s.params := rfl
@[simp] theorem busRead_schedule (r : Reg) (s : State) : (busRead r s).schedule = s.schedule := rfl
@[simp] theorem busRead_faults (r : Reg) (s : State) : (busRead r s).faults = s.faults := rfl
@[simp] theorem busRead_free (r : Reg) (s : State) : (busRead r s).free = s.free := rfl
@[simp] theorem busRead_readData (r : Reg) (s : State) : (busRead r s).readData = some (readReg r s) := rfl

/-- What a register reads as depends on the block and the parameters only. -/
theorem readReg_congr {s t : State} (hb : s.block = t.block) (hp : s.params = t.params) (r : Reg) :
    readReg r s = readReg r t := by
  cases r <;> simp [readReg, hb, hp]

/-- What a register reads as does not depend on the snapshot (10_state.md R40). -/
theorem readReg_congr_snap {s t : State} (hb : s.block = { t.block with snap := s.block.snap })
    (hp : s.params = t.params) (r : Reg) : readReg r s = readReg r t := by
  cases r <;> simp only [readReg, hp] <;> rw [hb]

/-! ### Commands -/

@[simp] theorem whileIdle_busy {s : State} (h : s.block.status.busy = true) (c : Command) :
    whileIdle c s = s := by simp [whileIdle, h]

@[simp] theorem whileIdle_idle {s : State} (h : s.block.status.busy = false) (c : Command) :
    whileIdle c s = performCommand c s := by simp [whileIdle, h]

/-- What a command can do: nothing, start a solve, clear `STATUS` or report `BAD_COMMAND`, and the last three
only while idle. -/
theorem whileIdle_cases (c : Command) (s : State) :
    whileIdle c s = s
    ∨ (s.block.status.busy = false ∧ c = .solve ∧ whileIdle c s = startSolve s)
    ∨ (s.block.status.busy = false ∧ c = .clear ∧ whileIdle c s = clearStatus s)
    ∨ (s.block.status.busy = false ∧ c = .reserved ∧ whileIdle c s = rejectCommand s) := by
  cases hb : s.block.status.busy
  · cases c <;> simp [hb, performCommand]
  · simp [hb]

/-- The code of `SOLVE` is 1 (30_encoding.md R74). -/
theorem Command.ofCode_eq_solve {code : BitVec 4} : Command.ofCode code = .solve ↔ code = 1#4 := by
  revert code; decide

/-! ### Writes -/

/-- What a write can do: nothing, store an input register, or issue a command. -/
theorem busWrite_cases (r : Reg) (v : Word) (s : State) :
    (r.isInput = false ∧ r ≠ .ctrl ∧ busWrite r v s = s)
    ∨ (r.isInput = true ∧ r ≠ .ctrl ∧ ∃ b : Block, busWrite r v s = s.withBlock b ∧ b.status = s.block.status
        ∧ b.snap = s.block.snap ∧ b.resInt = s.block.resInt ∧ b.resNum = s.block.resNum
        ∧ b.resDen = s.block.resDen)
    ∨ (r = .ctrl ∧ busWrite r v s = whileIdle (Command.ofCode (v.extractLsb' 0 4)) s) := by
  cases r <;> simp [busWrite, Reg.isInput, writeCtrl] <;> exact ⟨_, rfl, rfl, rfl, rfl, rfl, rfl⟩

/-- A command touches the block only. -/
theorem whileIdle_frame (c : Command) (s : State) :
    (whileIdle c s).params = s.params ∧ (whileIdle c s).schedule = s.schedule
    ∧ (whileIdle c s).readData = s.readData ∧ (whileIdle c s).faults = s.faults
    ∧ (whileIdle c s).free = s.free := by
  rcases whileIdle_cases c s with h | ⟨-, -, h⟩ | ⟨-, -, h⟩ | ⟨-, -, h⟩ <;>
    simp [h, startSolve, clearStatus, rejectCommand]

/-- A write touches the block only. -/
theorem busWrite_frame (r : Reg) (v : Word) (s : State) :
    (busWrite r v s).params = s.params ∧ (busWrite r v s).schedule = s.schedule
    ∧ (busWrite r v s).readData = s.readData ∧ (busWrite r v s).faults = s.faults
    ∧ (busWrite r v s).free = s.free := by
  rcases busWrite_cases r v s with ⟨-, -, h⟩ | ⟨-, -, b, h, -⟩ | ⟨-, h⟩
  · simp [h]
  · simp [h]
  · rw [h]; exact whileIdle_frame _ s

/-- What `exec` can do, for every operation: a bus read, a bus write, or a command. -/
theorem exec_cases {i : Instr} {s t : State} (h : exec i s = .next t) :
    (∃ r, i = readInstr r ∧ t = busRead r s)
    ∨ (∃ r v, i = writeInstr r v ∧ t = busWrite r v s)
    ∨ ∃ code hi, i = commandInstr code hi ∧ t = whileIdle (Command.ofCode code) s := by
  rcases i.op_cases with ⟨r, rfl⟩ | ⟨r, v, rfl⟩ | ⟨code, hi, rfl⟩
  · exact .inl ⟨r, rfl, by simpa using h.symm⟩
  · exact .inr (.inl ⟨r, v, rfl, by simpa using h.symm⟩)
  · exact .inr (.inr ⟨code, hi, rfl, by simpa using h.symm⟩)

/-- Every operation leaves the parameters, the schedule, the fault record and the free values. -/
theorem exec_frame {i : Instr} {s t : State} (h : exec i s = .next t) :
    t.params = s.params ∧ t.schedule = s.schedule ∧ t.faults = s.faults ∧ t.free = s.free := by
  rcases exec_cases h with ⟨r, -, rfl⟩ | ⟨r, v, -, rfl⟩ | ⟨code, hi, -, rfl⟩
  · simp
  · obtain ⟨h1, h2, -, h4, h5⟩ := busWrite_frame r v s
    exact ⟨h1, h2, h4, h5⟩
  · obtain ⟨h1, h2, -, h4, h5⟩ := whileIdle_frame (Command.ofCode code) s
    exact ⟨h1, h2, h4, h5⟩

/-! ### The engine -/

/-- What the completion can do: write the result of `Solve` on the snapshot, or report its error. -/
theorem complete_cases (s : State) :
    (∃ d, solve s.params s.block.snap.inputs = .ok d ∧ complete s = completeOk d s)
    ∨ ∃ e, solve s.params s.block.snap.inputs = .error e ∧ complete s = completeError e s := by
  unfold complete
  cases solve s.params s.block.snap.inputs with
  | ok d => exact .inl ⟨d, rfl, rfl⟩
  | error e => exact .inr ⟨e, rfl, rfl⟩

@[simp] theorem complete_busy (s : State) : (complete s).block.status.busy = false := by
  rcases complete_cases s with ⟨d, -, h⟩ | ⟨e, -, h⟩ <;> rw [h] <;> rfl

@[simp] theorem complete_snap (s : State) : (complete s).block.snap = s.block.snap := by
  rcases complete_cases s with ⟨d, -, h⟩ | ⟨e, -, h⟩ <;> rw [h] <;> rfl

/-- The completion touches the block only. -/
theorem complete_frame (s : State) :
    (complete s).params = s.params ∧ (complete s).schedule = s.schedule
    ∧ (complete s).readData = s.readData ∧ (complete s).faults = s.faults ∧ (complete s).free = s.free := by
  rcases complete_cases s with ⟨d, -, h⟩ | ⟨e, -, h⟩ <;> rw [h] <;> exact ⟨rfl, rfl, rfl, rfl, rfl⟩

@[simp] theorem engineTurn_busy {s : State} (h : s.block.status.busy = true) : engineTurn s = complete s := by
  simp [engineTurn, h]

@[simp] theorem engineTurn_idle {s : State} (h : s.block.status.busy = false) : engineTurn s = s := by
  simp [engineTurn, h]

/-- The engine's turn touches the block only. -/
theorem engineTurn_frame (s : State) :
    (engineTurn s).params = s.params ∧ (engineTurn s).schedule = s.schedule
    ∧ (engineTurn s).readData = s.readData ∧ (engineTurn s).faults = s.faults
    ∧ (engineTurn s).free = s.free := by
  cases h : s.block.status.busy
  · simp [h]
  · rw [engineTurn_busy h]; exact complete_frame s

end Sys2Proof.Machine
end

