-- ==== Sys2Proof/Laws/PerInstr.lean ====
section
/-! SUPPORT. Laws that hold of every operation, one lemma per constructor of `Instr`.

`TableRow`: the bits an operation encodes to match its own row of spec/opcode_table.json. -/

namespace Sys2Proof.Laws.TableRow

/-- The encoded bits of an operation match the mask and pattern of its row of the opcode table
(spec/30_encoding.md R84). -/
def Statement (i : Instr) : Prop := i.tableWord &&& i.row.mask = i.row.pattern

/-- A command's code survives under the ignored bits (R73). -/
theorem command_low_bits (code : BitVec 4) (hi : BitVec 28) :
    commandWord code hi &&& 0x0000000F#32 = code.zeroExtend 32 := by
  apply BitVec.eq_of_getLsbD_eq
  intro k hk
  rw [BitVec.getLsbD_and, commandWord_getLsbD]
  have hmask : (0x0000000F#32).getLsbD k = decide (k < 4) := by interval_cases k <;> rfl
  by_cases h : k < 4
  · simp [hmask, h, hk]
  · simp [hmask, h, BitVec.getLsbD_of_ge code k (by omega)]

theorem rdSrcFreq : Statement .rdSrcFreq := by unfold Statement; decide
theorem wrSrcFreq (v : Word) : Statement (.wrSrcFreq v) := by
  have h : Statement (.wrSrcFreq 0#32) := by unfold Statement; decide
  exact h
theorem rdTgtFreq : Statement .rdTgtFreq := by unfold Statement; decide
theorem wrTgtFreq (v : Word) : Statement (.wrTgtFreq v) := by
  have h : Statement (.wrTgtFreq 0#32) := by unfold Statement; decide
  exact h
theorem rdBaseDiv : Statement .rdBaseDiv := by unfold Statement; decide
theorem wrBaseDiv (v : Word) : Statement (.wrBaseDiv v) := by
  have h : Statement (.wrBaseDiv 0#32) := by unfold Statement; decide
  exact h
theorem rdConstraints : Statement .rdConstraints := by unfold Statement; decide
theorem wrConstraints (v : Word) : Statement (.wrConstraints v) := by
  have h : Statement (.wrConstraints 0#32) := by unfold Statement; decide
  exact h
theorem rdCtrl : Statement .rdCtrl := by unfold Statement; decide
theorem wrCtrl (v : Word) : Statement (.wrCtrl v) := by
  have h : Statement (.wrCtrl 0#32) := by unfold Statement; decide
  exact h
theorem rdStatus : Statement .rdStatus := by unfold Statement; decide
theorem wrStatus (v : Word) : Statement (.wrStatus v) := by
  have h : Statement (.wrStatus 0#32) := by unfold Statement; decide
  exact h
theorem rdResInt : Statement .rdResInt := by unfold Statement; decide
theorem wrResInt (v : Word) : Statement (.wrResInt v) := by
  have h : Statement (.wrResInt 0#32) := by unfold Statement; decide
  exact h
theorem rdResNum : Statement .rdResNum := by unfold Statement; decide
theorem wrResNum (v : Word) : Statement (.wrResNum v) := by
  have h : Statement (.wrResNum 0#32) := by unfold Statement; decide
  exact h
theorem rdResDen : Statement .rdResDen := by unfold Statement; decide
theorem wrResDen (v : Word) : Statement (.wrResDen v) := by
  have h : Statement (.wrResDen 0#32) := by unfold Statement; decide
  exact h
theorem rdCaps : Statement .rdCaps := by unfold Statement; decide
theorem wrCaps (v : Word) : Statement (.wrCaps v) := by
  have h : Statement (.wrCaps 0#32) := by unfold Statement; decide
  exact h
theorem rdRsvd28 : Statement .rdRsvd28 := by unfold Statement; decide
theorem wrRsvd28 (v : Word) : Statement (.wrRsvd28 v) := by
  have h : Statement (.wrRsvd28 0#32) := by unfold Statement; decide
  exact h
theorem rdRsvd2C : Statement .rdRsvd2C := by unfold Statement; decide
theorem wrRsvd2C (v : Word) : Statement (.wrRsvd2C v) := by
  have h : Statement (.wrRsvd2C 0#32) := by unfold Statement; decide
  exact h
theorem rdRsvd30 : Statement .rdRsvd30 := by unfold Statement; decide
theorem wrRsvd30 (v : Word) : Statement (.wrRsvd30 v) := by
  have h : Statement (.wrRsvd30 0#32) := by unfold Statement; decide
  exact h
theorem rdRsvd34 : Statement .rdRsvd34 := by unfold Statement; decide
theorem wrRsvd34 (v : Word) : Statement (.wrRsvd34 v) := by
  have h : Statement (.wrRsvd34 0#32) := by unfold Statement; decide
  exact h
theorem rdRsvd38 : Statement .rdRsvd38 := by unfold Statement; decide
theorem wrRsvd38 (v : Word) : Statement (.wrRsvd38 v) := by
  have h : Statement (.wrRsvd38 0#32) := by unfold Statement; decide
  exact h
theorem rdRsvd3C : Statement .rdRsvd3C := by unfold Statement; decide
theorem wrRsvd3C (v : Word) : Statement (.wrRsvd3C v) := by
  have h : Statement (.wrRsvd3C 0#32) := by unfold Statement; decide
  exact h
theorem nop (hi : BitVec 28) : Statement (.nop hi) := command_low_bits _ hi
theorem solve (hi : BitVec 28) : Statement (.solve hi) := command_low_bits _ hi
theorem clear (hi : BitVec 28) : Statement (.clear hi) := command_low_bits _ hi
theorem rsvdCmd3 (hi : BitVec 28) : Statement (.rsvdCmd3 hi) := command_low_bits _ hi
theorem rsvdCmd4 (hi : BitVec 28) : Statement (.rsvdCmd4 hi) := command_low_bits _ hi
theorem rsvdCmd5 (hi : BitVec 28) : Statement (.rsvdCmd5 hi) := command_low_bits _ hi
theorem rsvdCmd6 (hi : BitVec 28) : Statement (.rsvdCmd6 hi) := command_low_bits _ hi
theorem rsvdCmd7 (hi : BitVec 28) : Statement (.rsvdCmd7 hi) := command_low_bits _ hi
theorem rsvdCmd8 (hi : BitVec 28) : Statement (.rsvdCmd8 hi) := command_low_bits _ hi
theorem rsvdCmd9 (hi : BitVec 28) : Statement (.rsvdCmd9 hi) := command_low_bits _ hi
theorem rsvdCmdA (hi : BitVec 28) : Statement (.rsvdCmdA hi) := command_low_bits _ hi
theorem rsvdCmdB (hi : BitVec 28) : Statement (.rsvdCmdB hi) := command_low_bits _ hi
theorem rsvdCmdC (hi : BitVec 28) : Statement (.rsvdCmdC hi) := command_low_bits _ hi
theorem rsvdCmdD (hi : BitVec 28) : Statement (.rsvdCmdD hi) := command_low_bits _ hi
theorem rsvdCmdE (hi : BitVec 28) : Statement (.rsvdCmdE hi) := command_low_bits _ hi
theorem rsvdCmdF (hi : BitVec 28) : Statement (.rsvdCmdF hi) := command_low_bits _ hi

end Sys2Proof.Laws.TableRow
end

