-- ==== Sys2Proof/Laws/Solver.lean ====
section
/-! SUPPORT. What the search and the solve can answer, said once (spec/42_solver.md R156 to R164). -/

namespace Sys2Proof.Machine

/-- Denominator `a` is an exact match: `lhs = rhs` (R162). -/
def ExactAt (fd t a : Nat) : Prop := fd * a = t * roundNum fd t a

/-- The pair tracked over the `n` denominators from `a` up, starting from `best` (R163). -/
def tracked (fd t : Nat) : Nat → Nat → Option Candidate → Option Candidate
  | 0, _, best => best
  | n + 1, a, best => tracked fd t n (a + 1) (some (keepBest best (candidate fd t a)))

@[simp] theorem candidate_den (fd t a : Nat) : (candidate fd t a).den = a := rfl
@[simp] theorem candidate_num (fd t a : Nat) : (candidate fd t a).num = roundNum fd t a := rfl
@[simp] theorem candidate_dist (fd t a : Nat) :
    (candidate fd t a).dist = crossDist fd t a (roundNum fd t a) := rfl

/-- One denominator more (R163): a strictly nearer candidate replaces the pair. -/
theorem tracked_succ (fd t n a : Nat) (b : Candidate) :
    tracked fd t (n + 1) a (some b)
      = tracked fd t n (a + 1) (some (if (candidate fd t a).dist < b.dist then candidate fd t a else b)) := rfl

/-- The search either stops at its first exact match, or has none and ends with the tracked pair. -/
theorem scan_cases (fd t n a : Nat) (best : Option Candidate) :
    (∃ m, a ≤ m ∧ m < a + n ∧ ExactAt fd t m ∧ (∀ j, a ≤ j → j < m → ¬ ExactAt fd t j)
      ∧ scan fd t n a best = .exact (candidate fd t m))
    ∨ ((∀ j, a ≤ j → j < a + n → ¬ ExactAt fd t j)
      ∧ scan fd t n a best = .best (tracked fd t n a best)) := by
  induction n generalizing a best with
  | zero => exact .inr ⟨fun j h1 h2 => absurd h2 (by omega), rfl⟩
  | succ n ih =>
    by_cases hx : fd * a = t * roundNum fd t a
    · refine .inl ⟨a, le_rfl, by omega, hx, fun j h1 h2 => absurd h2 (by omega), ?_⟩
      simp [scan, hx]
    · have hs : scan fd t (n + 1) a best
          = scan fd t n (a + 1) (some (keepBest best (candidate fd t a))) := by simp [scan, hx]
      rw [hs]
      rcases ih (a + 1) (some (keepBest best (candidate fd t a))) with ⟨m, h1, h2, h3, h4, h5⟩ | ⟨h1, h2⟩
      · refine .inl ⟨m, by omega, by omega, h3, fun j hj1 hj2 => ?_, h5⟩
        rcases Nat.eq_or_lt_of_le hj1 with rfl | hlt
        · exact hx
        · exact h4 j hlt hj2
      · refine .inr ⟨fun j hj1 hj2 => ?_, h2⟩
        rcases Nat.eq_or_lt_of_le hj1 with rfl | hlt
        · exact hx
        · exact h1 j hlt (by omega)

/-- The pair tracked from a pair `b` on is `b` or a later candidate; no candidate is nearer, and if it is not
`b`, then it is nearer than `b` and than every candidate before it. -/
theorem tracked_some (fd t n a : Nat) (b : Candidate) :
    ∃ c, tracked fd t n a (some b) = some c
      ∧ c.dist ≤ b.dist
      ∧ (∀ j, a ≤ j → j < a + n → c.dist ≤ (candidate fd t j).dist)
      ∧ (c = b ∨ ∃ m, a ≤ m ∧ m < a + n ∧ c = candidate fd t m ∧ c.dist < b.dist
          ∧ ∀ j, a ≤ j → j < m → c.dist < (candidate fd t j).dist) := by
  induction n generalizing a b with
  | zero => exact ⟨b, rfl, le_rfl, fun j h1 h2 => absurd h2 (by omega), .inl rfl⟩
  | succ n ih =>
    by_cases hlt : (candidate fd t a).dist < b.dist
    · obtain ⟨c, h1, h2, h3, h4⟩ := ih (a + 1) (candidate fd t a)
      refine ⟨c, by rw [tracked_succ, if_pos hlt]; exact h1, by omega, fun j hj1 hj2 => ?_, .inr ?_⟩
      · rcases Nat.eq_or_lt_of_le hj1 with rfl | h
        · exact h2
        · exact h3 j h (by omega)
      · rcases h4 with rfl | ⟨m, hm1, hm2, rfl, hm4, hm5⟩
        · exact ⟨a, le_rfl, by omega, rfl, hlt, fun j hj1 hj2 => absurd hj2 (by omega)⟩
        · refine ⟨m, by omega, by omega, rfl, by omega, fun j hj1 hj2 => ?_⟩
          rcases Nat.eq_or_lt_of_le hj1 with rfl | h
          · exact hm4
          · exact hm5 j h hj2
    · obtain ⟨c, h1, h2, h3, h4⟩ := ih (a + 1) b
      refine ⟨c, by rw [tracked_succ, if_neg hlt]; exact h1, h2, fun j hj1 hj2 => ?_, ?_⟩
      · rcases Nat.eq_or_lt_of_le hj1 with rfl | h
        · omega
        · exact h3 j h (by omega)
      · rcases h4 with rfl | ⟨m, hm1, hm2, rfl, hm4, hm5⟩
        · exact .inl rfl
        · refine .inr ⟨m, by omega, by omega, rfl, hm4, fun j hj1 hj2 => ?_⟩
          rcases Nat.eq_or_lt_of_le hj1 with rfl | h
          · omega
          · exact hm5 j h hj2

/-- Over a non-empty range the tracked pair is the earliest candidate of the smallest distance (R163). -/
theorem tracked_none (fd t n a : Nat) (hn : 0 < n) :
    ∃ m, a ≤ m ∧ m < a + n ∧ tracked fd t n a none = some (candidate fd t m)
      ∧ (∀ j, a ≤ j → j < a + n → (candidate fd t m).dist ≤ (candidate fd t j).dist)
      ∧ ∀ j, a ≤ j → j < m → (candidate fd t m).dist < (candidate fd t j).dist := by
  obtain ⟨k, rfl⟩ : ∃ k, n = k + 1 := ⟨n - 1, by omega⟩
  obtain ⟨c, h1, h2, h3, h4⟩ := tracked_some fd t k (a + 1) (candidate fd t a)
  have hmin : ∀ j, a ≤ j → j < a + (k + 1) → c.dist ≤ (candidate fd t j).dist := by
    intro j hj1 hj2
    rcases Nat.eq_or_lt_of_le hj1 with rfl | h
    · exact h2
    · exact h3 j h (by omega)
  rcases h4 with rfl | ⟨m, hm1, hm2, rfl, hm4, hm5⟩
  · exact ⟨a, le_rfl, by omega, h1, hmin, fun j hj1 hj2 => absurd hj2 (by omega)⟩
  · refine ⟨m, by omega, by omega, h1, hmin, fun j hj1 hj2 => ?_⟩
    rcases Nat.eq_or_lt_of_le hj1 with rfl | h
    · exact hm4
    · exact hm5 j h hj2

/-- What `Solve` can answer with a result: it passed the validation, and the result is that of step 2, of step 4,
of the first exact match, or of the best tracked pair. -/
theorem solve_ok_cases {p : Params} {x : Inputs} {d : Divider} (h : solve p x = .ok d) :
    x.tgtFreq ≠ 0 ∧ x.srcFreq ≠ 0 ∧ badConstraints p x = false
    ∧ ((freqDiff x = 0 ∧ finish x x.baseDiv 0 1 .exact = .ok d)
      ∨ (freqDiff x ≠ 0 ∧ carries p.carryRule (freqDiff x) x.tgtFreq (dMax x.denBits) = true
          ∧ x.baseDiv ≠ 2 ^ 32 - 1 ∧ finish x (x.baseDiv + 1) 0 1 .carry = .ok d)
      ∨ (freqDiff x ≠ 0 ∧ carries p.carryRule (freqDiff x) x.tgtFreq (dMax x.denBits) = false
          ∧ ∃ c, search (freqDiff x) x.tgtFreq (dMax x.denBits) = .exact c
              ∧ finish x x.baseDiv c.num c.den .searchExact = .ok d)
      ∨ (freqDiff x ≠ 0 ∧ carries p.carryRule (freqDiff x) x.tgtFreq (dMax x.denBits) = false
          ∧ ∃ c, search (freqDiff x) x.tgtFreq (dMax x.denBits) = .best (some c)
              ∧ finish x x.baseDiv c.num c.den .searchBest = .ok d)) := by
  unfold solve at h
  split at h
  · simp at h
  · next ht =>
    split at h
    · simp at h
    · next hs =>
      split at h
      · simp at h
      · next hc =>
        refine ⟨ht, hs, by simpa using hc, ?_⟩
        unfold divide at h
        split at h
        · next hf => exact .inl ⟨hf, h⟩
        · next hf =>
          split at h
          · next hk =>
            unfold carryResult at h
            split at h
            · simp at h
            · next hb => exact .inr (.inl ⟨hf, hk, hb, h⟩)
          · next hk =>
            have hk' : carries p.carryRule (freqDiff x) x.tgtFreq (dMax x.denBits) = false := by simpa using hk
            unfold searchResult at h
            split at h
            · next c hsc => exact .inr (.inr (.inl ⟨hf, hk', c, hsc, h⟩))
            · next c hsc => exact .inr (.inr (.inr ⟨hf, hk', c, hsc, h⟩))
            · simp at h

/-- The search over `[2, D_max]` by `scan_cases` and `tracked_none`: with a non-empty range it never ends without
a pair (R163). -/
theorem search_cases (fd t dmax : Nat) (h : 2 ≤ dmax) :
    (∃ m, 2 ≤ m ∧ m ≤ dmax ∧ ExactAt fd t m ∧ (∀ j, 2 ≤ j → j < m → ¬ ExactAt fd t j)
      ∧ search fd t dmax = .exact (candidate fd t m))
    ∨ ((∀ j, 2 ≤ j → j ≤ dmax → ¬ ExactAt fd t j)
      ∧ ∃ m, 2 ≤ m ∧ m ≤ dmax ∧ search fd t dmax = .best (some (candidate fd t m))
        ∧ (∀ j, 2 ≤ j → j ≤ dmax → (candidate fd t m).dist ≤ (candidate fd t j).dist)
        ∧ ∀ j, 2 ≤ j → j < m → (candidate fd t m).dist < (candidate fd t j).dist) := by
  rcases scan_cases fd t (dmax - 1) 2 none with ⟨m, h1, h2, h3, h4, h5⟩ | ⟨h1, h2⟩
  · exact .inl ⟨m, h1, by omega, h3, h4, h5⟩
  · obtain ⟨m, hm1, hm2, hm3, hm4, hm5⟩ := tracked_none fd t (dmax - 1) 2 (by omega)
    refine .inr ⟨fun j hj1 hj2 => h1 j hj1 (by omega), m, hm1, by omega, ?_,
      fun j hj1 hj2 => hm4 j hj1 (by omega), hm5⟩
    show scan fd t (dmax - 1) 2 none = _
    rw [h2, hm3]

/-! ### What a validated solve knows -/

/-- What passing the constraints check means (R152). -/
theorem badConstraints_false_iff {p : Params} {x : Inputs} :
    badConstraints p x = false ↔
      x.denBits ≠ 0 ∧ x.denBits ≤ p.denBitsMax ∧ x.intBits ≤ 32
      ∧ ¬ (p.carryRule = .observed ∧ x.denBits = 1) := by
  simp [badConstraints]

/-- `D_max` is at least 1 once the constraints are checked (R154). -/
theorem dMax_pos {p : Params} {x : Inputs} (h : badConstraints p x = false) : 1 ≤ dMax x.denBits := by
  have h1 : 1 ≤ x.denBits := Nat.one_le_iff_ne_zero.2 (badConstraints_false_iff.1 h).1
  have h2 := Nat.pow_le_pow_right (show 0 < 2 by decide) h1
  unfold dMax
  omega

/-- Without a carry the remainder is below the target (R157, R178). -/
theorem freqDiff_lt_of_noCarry {rule : CarryRule} {fd t dm : Nat} (h : carries rule fd t dm = false)
    (hd : 1 ≤ dm) (ht : t ≠ 0) : fd < t := by
  have hpos := Nat.pos_of_ne_zero ht
  by_contra hle
  cases rule <;> simp only [carries, decide_eq_false_iff_not, not_lt] at h
  · have h1 : t * dm ≤ fd * dm := Nat.mul_le_mul_right _ (by omega)
    have h2 : (dm - 1) * t + t = dm * t := by rw [← Nat.succ_mul]; congr 1; omega
    nlinarith
  · have h1 : t * (2 * dm) ≤ fd * (2 * dm) := Nat.mul_le_mul_right _ (by omega)
    have h2 : (2 * dm - 1) * t + t = 2 * dm * t := by rw [← Nat.succ_mul]; congr 1; omega
    nlinarith

/-- With a remainder below the target the rounded numerator is at most the denominator (R160). -/
theorem roundNum_le {fd t a : Nat} (h : fd < t) : roundNum fd t a ≤ a := by
  unfold roundNum
  rw [Nat.div_le_iff_le_mul_add_pred (by omega)]
  have h1 : 2 * a * fd ≤ 2 * a * t := Nat.mul_le_mul_left _ h.le
  have h2 : 2 * t * a = 2 * a * t := by ring
  omega

/-- A valid solve that neither matches nor carries has `DB ≥ 2`, so its search range is not empty (R159, R177;
log entry 15). -/
theorem two_le_denBits {p : Params} {x : Inputs} (hc : badConstraints p x = false) (hf : freqDiff x ≠ 0)
    (hk : carries p.carryRule (freqDiff x) x.tgtFreq (dMax x.denBits) = false) :
    2 ≤ x.denBits ∧ 3 ≤ dMax x.denBits := by
  obtain ⟨h0, -, -, ho⟩ := badConstraints_false_iff.1 hc
  have hb : 2 ≤ x.denBits := by
    by_contra hlt
    have h1 : x.denBits = 1 := by omega
    cases hr : p.carryRule
    · rw [hr, h1] at hk
      simp [carries, dMax] at hk
      exact hf hk
    · exact ho ⟨hr, h1⟩
  have h2 := Nat.pow_le_pow_right (show 0 < 2 by decide) hb
  exact ⟨hb, by unfold dMax; omega⟩

/-- Steps 5 and 6 of a valid solve always find a pair: the model's answer for a search without one is never
reached (log entry 15). -/
theorem search_finds {p : Params} {x : Inputs} (hc : badConstraints p x = false) (hf : freqDiff x ≠ 0)
    (hk : carries p.carryRule (freqDiff x) x.tgtFreq (dMax x.denBits) = false) :
    search (freqDiff x) x.tgtFreq (dMax x.denBits) ≠ .best none := by
  have h3 := (two_le_denBits hc hf hk).2
  rcases search_cases (freqDiff x) x.tgtFreq (dMax x.denBits) (by omega) with
    ⟨m, -, -, -, -, h⟩ | ⟨-, m, -, -, h, -⟩ <;> rw [h] <;> simp

end Sys2Proof.Machine
end

