-- ==== Sys2Proof/Laws/Step.lean ====
section
/-! SUPPORT. What one step can do, said once. -/

namespace Sys2Proof.Machine

/-! ### The step by the head of the schedule -/

theorem step_nil {s : State} (h : s.schedule = []) : step s = .next (engineTurn s) := by
  simp [step, h]

theorem step_cons {s : State} {e : Event} {rest : List Event} (h : s.schedule = e :: rest) :
    step s = eventStep e (s.withSchedule rest) := by
  simp [step, h]

theorem step_engine {s : State} {rest : List Event} (h : s.schedule = .engine :: rest) :
    step s = .next (engineTurn (s.withSchedule rest)) := step_cons h

theorem step_reset {s : State} {rest : List Event} (h : s.schedule = .reset :: rest) :
    step s = .next (resetEvent (s.withSchedule rest)) := step_cons h

/-- A bus access that decodes runs its operation. -/
theorem masterStep_ok {s : State} {a : Access} {i : Instr} (h : decodeAccess s.params a = .ok i) :
    masterStep a s = exec i s := by
  simp [masterStep, h]

theorem step_bus {s : State} {a : Access} {rest : List Event} {i : Instr} (h : s.schedule = .bus a :: rest)
    (hd : decodeAccess s.params a = .ok i) : step s = exec i (s.withSchedule rest) :=
  (step_cons h).trans (masterStep_ok hd)

/-- What a step that answers a next state can be: the engine's turn, a reset, a bus read or a bus write. -/
theorem step_cases {s t : State} (h : step s = .next t) :
    ((s.schedule = [] ∨ ∃ rest, s.schedule = .engine :: rest)
      ∧ t = engineTurn (s.withSchedule s.schedule.tail))
    ∨ (∃ rest, s.schedule = .reset :: rest ∧ t = resetEvent (s.withSchedule rest))
    ∨ (∃ a rest r, s.schedule = .bus a :: rest ∧ decodeAccess s.params a = .ok (readInstr r)
        ∧ t = busRead r (s.withSchedule rest))
    ∨ ∃ a rest r v, s.schedule = .bus a :: rest ∧ decodeAccess s.params a = .ok (writeInstr r v)
        ∧ t = busWrite r v (s.withSchedule rest) := by
  cases hs : s.schedule with
  | nil =>
    rw [step_nil hs] at h
    refine .inl ⟨.inl rfl, ?_⟩
    have ht : s.withSchedule [] = s := by rw [← hs]; rfl
    simpa [ht] using h.symm
  | cons e rest =>
    cases e with
    | engine =>
      rw [step_engine hs] at h
      exact .inl ⟨.inr ⟨rest, rfl⟩, by simpa using h.symm⟩
    | reset =>
      rw [step_reset hs] at h
      exact .inr (.inl ⟨rest, rfl, by simpa using h.symm⟩)
    | bus a =>
      cases hd : decodeAccess s.params a with
      | ok i =>
        rw [step_bus hs hd] at h
        obtain ⟨-, -, ⟨r, rfl⟩ | ⟨r, rfl⟩⟩ := decodeAccess_ok hd
        · exact .inr (.inr (.inl ⟨a, rest, r, rfl, hd, by simpa using h.symm⟩))
        · exact .inr (.inr (.inr ⟨a, rest, r, _, rfl, hd, by simpa using h.symm⟩))
      | error e =>
        rw [step_cons hs] at h
        simp only [eventStep, masterStep, State.withSchedule_params, hd] at h
        cases e <;> simp at h

/-! ### The total order -/

theorem advance_next {s t : State} (h : step s = .next t) : advance s = t := by
  simp [advance, h, outcomeState]

theorem advance_fault {s : State} {f : Fault} (h : step s = .fault f) :
    advance s = recordFault f (s.withSchedule s.schedule.tail) := by
  simp [advance, h, outcomeState]

theorem advance_refused {s : State} {q : Refusal} (h : step s = .refused q) :
    advance s = s.withSchedule s.schedule.tail := by
  simp [advance, h, outcomeState]

theorem advanceN_succ (n : Nat) (s : State) : advanceN (n + 1) s = advanceN n (advance s) := rfl

/-- Steps compose. -/
theorem advanceN_add (m n : Nat) (s : State) : advanceN (m + n) s = advanceN n (advanceN m s) := by
  induction m generalizing s with
  | zero => simp [advanceN]
  | succ m ih => rw [Nat.succ_add]; exact ih (advance s)

/-- What holds of a state, and is kept by `advance`, holds after any number of steps. -/
theorem advanceN_induction {P : State → Prop} (hstep : ∀ s, P s → P (advance s)) :
    ∀ (n : Nat) (s : State), P s → P (advanceN n s)
  | 0, _, h => h
  | n + 1, s, h => advanceN_induction hstep n (advance s) (hstep s h)

/-- A step takes the head off the schedule. -/
theorem advance_schedule (s : State) : (advance s).schedule = s.schedule.tail := by
  cases ho : step s with
  | fault f => simp [advance_fault ho]
  | refused q => simp [advance_refused ho]
  | next t =>
    rw [advance_next ho]
    rcases step_cases ho with ⟨-, rfl⟩ | ⟨rest, h, rfl⟩ | ⟨a, rest, r, h, -, rfl⟩ | ⟨a, rest, r, v, h, -, rfl⟩
    · rw [(engineTurn_frame _).2.1]; rfl
    · simp [h]
    · simp [h]
    · rw [(busWrite_frame r v _).2.1]; simp [h]

end Sys2Proof.Machine
end

