-- ==== Sys2Proof/Tests/Slice0.lean ====
section
/-! SUPPORT. The model's own tests. Words and expected values come from the tables of spec/30_encoding.md and from
the vectors and programs of spec/95_test_vectors.md, named in each docstring. The `witness_…` theorems show states
and operands that meet the hypotheses of the obligations. -/

namespace Sys2Proof.Tests

open Sys2Proof Sys2Proof.Machine

/-! ### Small states -/

/-- The next state of an outcome. -/
def nextOf (o : Host.Outcome State Fault Refusal) : Option State :=
  match o with
  | .next t => some t
  | .fault _ => none
  | .refused _ => none

/-- The fault of an outcome. -/
def faultOf (o : Host.Outcome State Fault Refusal) : Option Fault :=
  match o with
  | .next _ => none
  | .fault f => some f
  | .refused _ => none

/-- The inputs of V-S4, as a snapshot. -/
def snapS4 : Snapshot :=
  { srcFreq := 160000000#32, tgtFreq := 11289600#32, baseDiv := 14#32, intBits := 32#8, denBits := 6#8 }

/-- A block with the inputs and the results of V-S4, that snapshot and a given `STATUS`. -/
def stateWith (st : Status) : State :=
  { State.reset with block :=
      { srcFreq := 160000000#32, tgtFreq := 11289600#32, baseDiv := 14#32, intBits := 32#8, denBits := 6#8
        status := st, resInt := 14#32, resNum := 5#32, resDen := 29#32, snap := snapS4 } }

/-- `STATUS = 0x302`: done, `SEARCH_BEST`. -/
def doneState : State := stateWith (Status.result .searchBest false false)

/-- `STATUS = 0x14`: `TARGET_ZERO`. -/
def errorState : State := stateWith (Status.rejected .targetZero)

/-- `STATUS = 0x1`: a solve runs. -/
def busyState : State := stateWith Status.solving

/-- `STATUS = 0`. -/
def idleState : State := stateWith Status.clear

/-- `STATUS` as it reads. -/
def statusOf (s : State) : Word := readReg .status s

/-- `RES_INT`, `RES_NUM`, `RES_DEN` as they read. -/
def resultsOf (s : State) : Word × Word × Word := (readReg .resInt s, readReg .resNum s, readReg .resDen s)

/-- `STATUS` after an operation. -/
def statusAfter (i : Instr) (s : State) : Option Word := (nextOf (exec i s)).map statusOf

/-- What a read returns. -/
def readOf (i : Instr) (s : State) : Option Word := (nextOf (exec i s)).bind State.readData

/-- A write, then a read of the state it leaves. -/
def writeThenRead (w r : Instr) (s : State) : Option Word := (nextOf (exec w s)).bind (readOf r)

/-- The inputs of a row of the solver table. -/
def inputs (s t b : Nat) (ib : Nat := 32) (db : Nat := 6) : Inputs :=
  { srcFreq := s, tgtFreq := t, baseDiv := b, intBits := ib, denBits := db }

/-- The parameters of a row of the solver table. -/
def params (dbMax : Nat) (rule : CarryRule) : Params := { baseAddr := 0, denBitsMax := dbMax, carryRule := rule }

/-- A result, and the `STATUS` word its completion leaves. -/
def view (r : SolveResult) : Nat × Nat × Nat × Word :=
  match r with
  | .ok d => (d.int, d.num, d.den, (Status.result d.path d.neg d.intRange).word)
  | .error e => (0, 0, 0, (Status.rejected e).word)

/-! ### Well-formed terms: for each check a term it refuses -/

/-- R5: `P_BASE_ADDR` a multiple of 64. -/
theorem test_wf_base_address : Params.wf ⟨60, 6, .doc⟩ = false ∧ Params.wf ⟨64, 6, .doc⟩ = true := by decide

/-- R5: `P_DEN_BITS_MAX` at least 1. -/
theorem test_wf_den_bits_low : Params.wf ⟨0, 0, .doc⟩ = false ∧ Params.wf ⟨0, 1, .doc⟩ = true := by decide

/-- R5: `P_DEN_BITS_MAX` at most 16. -/
theorem test_wf_den_bits_high : Params.wf ⟨0, 17, .doc⟩ = false ∧ Params.wf ⟨0, 16, .observed⟩ = true := by decide

/-- R52: the access lies in the window, which ends below offset 64. -/
theorem test_wf_access_window :
    Access.supported ⟨64, 6, .doc⟩ ⟨60, 4, .read⟩ = false ∧ Access.supported ⟨64, 6, .doc⟩ ⟨128, 4, .read⟩ = false
    ∧ Access.supported ⟨64, 6, .doc⟩ ⟨64, 4, .read⟩ = true ∧ Access.supported ⟨64, 6, .doc⟩ ⟨124, 4, .read⟩ = true := by
  decide

/-- R52: the access is 32 bits wide. -/
theorem test_wf_access_size : Access.supported ⟨64, 6, .doc⟩ ⟨64, 8, .read⟩ = false := by decide

/-- R52: the access is aligned. -/
theorem test_wf_access_aligned : Access.supported ⟨64, 6, .doc⟩ ⟨65, 4, .write 0⟩ = false := by decide

/-- R81: a register offset is a multiple of 4. -/
theorem test_wf_asm_offset_multiple : AsmReg.wf (.offset 0x0A) = false := by decide

/-- R81: a register offset is at most 0x3C. -/
theorem test_wf_asm_offset_range : AsmReg.wf (.offset 0x40) = false ∧ AsmReg.wf (.offset 0x3C) = true := by decide

/-- R81: a value fits 32 bits. -/
theorem test_wf_asm_value :
    AsmLine.wf (.wr (.named .srcFreq) 0x100000000) = false ∧ AsmLine.wf (.wr (.offset 2) 0) = false
    ∧ AsmLine.wf (.wr (.named .srcFreq) 0xFFFFFFFF) = true ∧ AsmLine.wf (.rd (.offset 0x41)) = false := by decide

/-- R82: each of the four values of `CONFIG`. -/
theorem test_wf_asm_config :
    AsmLine.wf (.config 0x100000000 0 0 0 0) = false ∧ AsmLine.wf (.config 0 0x100000000 0 0 0) = false
    ∧ AsmLine.wf (.config 0 0 0x100000000 0 0) = false ∧ AsmLine.wf (.config 0 0 0 0 0x1000000) = false
    ∧ AsmLine.wf (.config 160000000 11289600 14 32 6) = true := by decide

/-! ### Decoding: the word of each row, written out from the tables of R72 and R74 -/

/-- R72: the sixteen read keys `{0, OFF}`. -/
theorem test_read_keys :
    [0x00#8, 0x04#8, 0x08#8, 0x0C#8, 0x10#8, 0x14#8, 0x18#8, 0x1C#8].map (fun k => decode .bus [k])
      = [Instr.rdSrcFreq, .rdTgtFreq, .rdBaseDiv, .rdConstraints, .rdCtrl, .rdStatus, .rdResInt, .rdResNum].map
          (fun i => .ok (i, []))
    ∧ [0x20#8, 0x24#8, 0x28#8, 0x2C#8, 0x30#8, 0x34#8, 0x38#8, 0x3C#8].map (fun k => decode .bus [k])
      = [Instr.rdResDen, .rdCaps, .rdRsvd28, .rdRsvd2C, .rdRsvd30, .rdRsvd34, .rdRsvd38, .rdRsvd3C].map
          (fun i => .ok (i, [])) := by decide +kernel

/-- R72: the sixteen write keys `{1, OFF}`, each with the data word 0x12345678 in little-endian lanes. -/
theorem test_write_keys :
    [0x40#8, 0x44#8, 0x48#8, 0x4C#8, 0x50#8, 0x54#8, 0x58#8, 0x5C#8].map
        (fun k => decode .bus [k, 0x78#8, 0x56#8, 0x34#8, 0x12#8])
      = [Instr.wrSrcFreq 0x12345678#32, .wrTgtFreq 0x12345678#32, .wrBaseDiv 0x12345678#32,
          .wrConstraints 0x12345678#32, .wrCtrl 0x12345678#32, .wrStatus 0x12345678#32, .wrResInt 0x12345678#32,
          .wrResNum 0x12345678#32].map (fun i => .ok (i, []))
    ∧ [0x60#8, 0x64#8, 0x68#8, 0x6C#8, 0x70#8, 0x74#8, 0x78#8, 0x7C#8].map
        (fun k => decode .bus [k, 0x78#8, 0x56#8, 0x34#8, 0x12#8])
      = [Instr.wrResDen 0x12345678#32, .wrCaps 0x12345678#32, .wrRsvd28 0x12345678#32, .wrRsvd2C 0x12345678#32,
          .wrRsvd30 0x12345678#32, .wrRsvd34 0x12345678#32, .wrRsvd38 0x12345678#32, .wrRsvd3C 0x12345678#32].map
          (fun i => .ok (i, [])) := by decide +kernel

/-- R74: the sixteen commands, bits [3:0] of the data word, with 0xABCDEF1 in the ignored bits [31:4]. -/
theorem test_command_words :
    [0x10#8, 0x11#8, 0x12#8, 0x13#8, 0x14#8, 0x15#8, 0x16#8, 0x17#8].map
        (fun b => decode .cmd [b, 0xEF#8, 0xCD#8, 0xAB#8])
      = [Instr.nop 0xABCDEF1#28, .solve 0xABCDEF1#28, .clear 0xABCDEF1#28, .rsvdCmd3 0xABCDEF1#28,
          .rsvdCmd4 0xABCDEF1#28, .rsvdCmd5 0xABCDEF1#28, .rsvdCmd6 0xABCDEF1#28, .rsvdCmd7 0xABCDEF1#28].map
          (fun i => .ok (i, []))
    ∧ [0x18#8, 0x19#8, 0x1A#8, 0x1B#8, 0x1C#8, 0x1D#8, 0x1E#8, 0x1F#8].map
        (fun b => decode .cmd [b, 0xEF#8, 0xCD#8, 0xAB#8])
      = [Instr.rsvdCmd8 0xABCDEF1#28, .rsvdCmd9 0xABCDEF1#28, .rsvdCmdA 0xABCDEF1#28, .rsvdCmdB 0xABCDEF1#28,
          .rsvdCmdC 0xABCDEF1#28, .rsvdCmdD 0xABCDEF1#28, .rsvdCmdE 0xABCDEF1#28, .rsvdCmdF 0xABCDEF1#28].map
          (fun i => .ok (i, [])) := by decide +kernel

/-- R71: keys with `OFF[1:0]` not 00 decode to nothing, nor does a first byte with bit 7, nor a cut string. -/
theorem test_rejected_bytes :
    decode .bus [0x15#8] = .error (.misalignedOffset 0x15#6)
    ∧ decode .bus [0x42#8, 0#8, 0#8, 0#8, 0#8] = .error (.misalignedOffset 0x02#6)
    ∧ decode .bus [0x80#8] = .error (.notAKey 0x80#8)
    ∧ decode .bus [] = .error .truncated ∧ decode .bus [0x40#8, 0#8] = .error .truncated
    ∧ decode .cmd [0x01#8, 0#8, 0#8] = .error .truncated := by decide +kernel

/-- R70, R81: the encoder writes the key, the data word's lanes, or the `CTRL` data word (Program 1). -/
theorem test_encode :
    encode (.wrTgtFreq 11289600#32) = [0x44#8, 0x00#8, 0x44#8, 0xAC#8, 0x00#8] ∧ encode .rdStatus = [0x14#8]
    ∧ encode (.solve 0#28) = [0x01#8, 0#8, 0#8, 0#8] ∧ encode (.clear 0x1234567#28) = [0x72#8, 0x56#8, 0x34#8, 0x12#8]
    := by decide +kernel

/-- The rows of the opcode table, as numbers of 8 bits (`BUS`) and 32 bits (`CMD`): every word gives its row. -/
theorem test_table_words :
    (tableInstrs.map fun i => decodeTableWord (match i.format with | .bus => 8 | .cmd => 32) i.row.pattern.toNat)
      = tableInstrs.map some := by decide +kernel

/-- A `CMD` row given one byte is read as that row where the byte is no key (log entry 13). -/
theorem test_table_words_one_byte :
    [1, 2, 3, 5, 6, 7, 9, 10, 11, 13, 14, 15].map (decodeTableWord 8)
      = [some (Instr.solve 0#28), some (.clear 0#28), some (.rsvdCmd3 0#28), some (.rsvdCmd5 0#28),
         some (.rsvdCmd6 0#28), some (.rsvdCmd7 0#28), some (.rsvdCmd9 0#28), some (.rsvdCmdA 0#28),
         some (.rsvdCmdB 0#28), some (.rsvdCmdD 0#28), some (.rsvdCmdE 0#28), some (.rsvdCmdF 0#28)] := by
  decide +kernel

/-- A table word runs as the first step after reset: `RD_RES_DEN` and `SOLVE`. -/
theorem test_fetch_word :
    (nextOf (step (State.reset.withFetchWord 8 0x20))).bind State.readData = some 1#32
    ∧ (nextOf (step (State.reset.withFetchWord 32 0x1))).map statusOf = some 0x1#32 := by decide +kernel

/-! ### Register access: V-R1 to V-R17 -/

/-- V-R1 to V-R4, V-R7, V-R12: reads after reset. -/
theorem test_reads_after_reset :
    readOf .rdConstraints State.reset = some 0x620#32 ∧ readOf .rdResDen State.reset = some 1#32
    ∧ readOf .rdStatus State.reset = some 0#32 ∧ readOf .rdCaps State.reset = some 0x6#32
    ∧ readOf .rdCaps (State.initial (params 12 .observed) []) = some 0x10C#32
    ∧ readOf .rdCtrl State.reset = some 0#32 ∧ readOf .rdRsvd28 State.reset = some 0#32
    ∧ readOf .rdRsvd3C State.reset = some 0#32 := by decide +kernel

/-- The other reads, on a block with distinct contents (R100 to R120). -/
theorem test_reads :
    readOf .rdSrcFreq doneState = some 160000000#32 ∧ readOf .rdTgtFreq doneState = some 11289600#32
    ∧ readOf .rdBaseDiv doneState = some 14#32 ∧ readOf .rdStatus doneState = some 0x302#32
    ∧ readOf .rdResInt doneState = some 14#32 ∧ readOf .rdResNum doneState = some 5#32
    ∧ readOf .rdResDen doneState = some 29#32
    ∧ [Instr.rdRsvd2C, .rdRsvd30, .rdRsvd34, .rdRsvd38].map (readOf · doneState)
        = List.replicate 4 (some 0#32) := by decide +kernel

/-- V-R5, V-R6 and the two other input registers: the word reads back. -/
theorem test_input_writes :
    writeThenRead (.wrConstraints 0xFFFF0806#32) .rdConstraints State.reset = some 0x806#32
    ∧ writeThenRead (.wrSrcFreq 0x09896800#32) .rdSrcFreq State.reset = some 0x09896800#32
    ∧ writeThenRead (.wrTgtFreq 0x00AC4400#32) .rdTgtFreq State.reset = some 0x00AC4400#32
    ∧ writeThenRead (.wrBaseDiv 14#32) .rdBaseDiv State.reset = some 14#32 := by decide +kernel

/-- V-R8 to V-R11, V-R13: writes that are ignored; nothing else changes either. -/
theorem test_ignored_writes :
    writeThenRead (.wrStatus 0xFFFFFFFF#32) .rdStatus State.reset = some 0#32
    ∧ writeThenRead (.wrResDen 0#32) .rdResDen State.reset = some 1#32
    ∧ writeThenRead (.wrResInt 5#32) .rdResInt State.reset = some 0#32
    ∧ writeThenRead (.wrCaps 0#32) .rdCaps State.reset = some 6#32
    ∧ [Instr.wrResNum 5#32, .wrRsvd28 5#32, .wrRsvd2C 5#32, .wrRsvd30 0x12345678#32, .wrRsvd34 5#32, .wrRsvd38 5#32,
        .wrRsvd3C 5#32].map (fun i => nextOf (exec i doneState)) = List.replicate 7 (some doneState) := by
  decide +kernel

/-- V-R14, V-R15, V-R16: a 16-bit read, a misaligned read and an 8-bit write fault; no register changes. -/
theorem test_unsupported_accesses :
    faultOf (step (State.reset.withSchedule [.bus ⟨0x14, 2, .read⟩])) = some (.unsupportedAccess 0x14 2 false)
    ∧ faultOf (step (State.reset.withSchedule [.bus ⟨0x02, 4, .read⟩])) = some (.unsupportedAccess 0x02 4 false)
    ∧ faultOf (step (State.reset.withSchedule [.bus ⟨0x10, 1, .write 1⟩])) = some (.unsupportedAccess 0x10 1 true)
    ∧ advance (State.reset.withSchedule [.bus ⟨0x10, 1, .write 1⟩])
        = { State.reset with faults := [.unsupportedAccess 0x10 1 true] } := by decide +kernel

/-- V-R17: a solve that carries to 15 leaves `BASE_DIV` at 14. -/
theorem test_base_div_after_carry :
    let s := advanceN 6 (State.reset.withSchedule
      (programEvents State.reset.params [.config 1499 100 14 32 6, .solve] ++ [.engine]))
    readReg .baseDiv s = 14#32 ∧ resultsOf s = (15#32, 0#32, 1#32) := by decide +kernel

/-- 20_memory.md R50: the byte at the window's lowest address is the least significant. -/
theorem test_little_endian :
    [windowByte 0 doneState, windowByte 1 doneState, windowByte 2 doneState, windowByte 3 doneState]
      = [0x00#8, 0x68#8, 0x89#8, 0x09#8] := by decide +kernel

/-! ### Commands: V-C1 to V-C12 -/

/-- V-C1, V-C2. -/
theorem test_nop : statusAfter (.nop 0#28) idleState = some 0#32
    ∧ statusAfter (.wrCtrl 0xFFFFFFF0#32) doneState = some 0x302#32 := by decide +kernel

/-- V-C3, V-C4: the snapshot is taken, the results stay, an error is cleared. -/
theorem test_solve :
    nextOf (exec (.solve 0#28) doneState) = some busyState
    ∧ statusAfter (.wrCtrl 0x12345671#32) errorState = some 0x1#32 := by decide +kernel

/-- V-C5, V-C6. -/
theorem test_clear :
    nextOf (exec (.clear 0#28) errorState) = some idleState ∧ nextOf (exec (.wrCtrl 2#32) doneState) = some idleState := by
  decide +kernel

/-- V-C7, V-C8, V-C9: `DONE` and `PATH` stay. -/
theorem test_reserved :
    statusAfter (.rsvdCmd7 0#28) doneState = some 0x356#32 ∧ statusAfter (.rsvdCmdF 0#28) idleState = some 0x54#32
    ∧ statusAfter (.rsvdCmd3 0#28) (stateWith (Status.result .searchBest false false).badCommand) = some 0x356#32 := by
  decide +kernel

/-- R136: the other reserved codes. -/
theorem test_reserved_codes (hi : BitVec 28) :
    [Instr.rsvdCmd4 hi, .rsvdCmd5 hi, .rsvdCmd6 hi, .rsvdCmd8 hi, .rsvdCmd9 hi, .rsvdCmdA hi, .rsvdCmdB hi,
      .rsvdCmdC hi, .rsvdCmdD hi, .rsvdCmdE hi].map (statusAfter · idleState) = List.replicate 10 (some 0x54#32) := by
  rfl

/-- V-C10, V-C11, V-C12: dropped while busy. -/
theorem test_dropped :
    [Instr.clear 0#28, .solve 0#28, .rsvdCmd9 0#28].map (fun i => nextOf (exec i busyState))
      = List.replicate 3 (some busyState) := by decide +kernel

/-! ### Completion and reset: V-E1 to V-E3, V-T1 to V-T3 -/

/-- A running solve with a given snapshot and given results. -/
def running (s t b : Word) (i n d : Word) : State :=
  { State.reset with block := { Block.reset Params.default
      { srcFreq := s, tgtFreq := t, baseDiv := b, intBits := 32#8, denBits := 6#8 } with
      status := Status.solving, resInt := i, resNum := n, resDen := d } }

/-- `STATUS` and the results after one step. -/
def completed (s : State) : Word × Word × Word × Word := (statusOf (advance s), resultsOf (advance s))

/-- V-E1, V-E2, V-E3. -/
theorem test_completion :
    completed (running 160000000 11289600 14 0 0 1) = (0x302#32, 14#32, 5#32, 29#32)
    ∧ completed (running 100 0 1 14 5 29) = (0x14#32, 14#32, 5#32, 29#32)
    ∧ completed (running 1 0xFFFFFFFF 0xFFFFFFFF 10 0 1) = (0x44#32, 10#32, 0#32, 1#32) := by decide +kernel

/-- V-T1, V-T2: a reset while idle and while a solve runs; no completion follows. -/
theorem test_reset :
    [doneState, busyState].map (fun s => let t := advanceN 3 (s.withSchedule [.reset, .engine])
      (statusOf t, resultsOf t, readReg .constraints t, readReg .srcFreq t))
      = List.replicate 2 (0#32, (0#32, 0#32, 1#32), 0x620#32, 0#32) := by
  rfl

/-- V-T3: `SOLVE` right after reset. -/
theorem test_solve_after_reset :
    statusOf (advanceN 2 (State.reset.withSchedule (programEvents State.reset.params [.solve]))) = 0x14#32 := by
  decide +kernel

/-- Program 4: the accesses around a reserved command, ending with the fault of `RD.B 0x14`. -/
theorem test_program_4 :
    let s := doneState.withSchedule (programEvents doneState.params
      [.rd (.named .caps), .wr (.named .ctrl) 7, .rd (.named .status), .wr (.named .status) 0, .rd (.named .status),
        .clear, .rd (.named .status)] ++ [.bus ⟨0x14, 1, .read⟩])
    (advanceN 1 s).readData = some 0x6#32 ∧ (advanceN 5 s).readData = some 0x356#32
    ∧ advanceN 8 s = { idleState with readData := some 0#32, faults := [.unsupportedAccess 0x14 1 false] } := by
  decide +kernel

/-- Program 1: the listing of its first lines (R81), and R82's `SOLVE_SYNC` as one `SOLVE` and the polls. -/
theorem test_listing :
    [AsmLine.wr (.named .srcFreq) 160000000, .wr (.offset 0x04) 11289600, .wr (.named .constraints) 0x620, .solve,
      .rd (.named .status)].flatMap (lineListing Params.default)
      = [(0x40#7, 0x09896800#32), (0x44#7, 0x00AC4400#32), (0x4C#7, 0x620#32), (0x50#7, 0x1#32), (0x14#7, 0#32)]
    ∧ lineListing Params.default (.solveSync 2) = [(0x50#7, 1#32), (0x14#7, 0#32), (0x14#7, 0#32), (0x14#7, 0#32)]
    ∧ lineListing Params.default (.config 1007 100 10 32 6)
      = [(0x40#7, 0x3EF#32), (0x44#7, 0x64#32), (0x48#7, 0xA#32), (0x4C#7, 0x620#32)] := by decide +kernel

/-- Program 3: the inputs written while a solve runs are not in the snapshot; a `SOLVE` written then is dropped. -/
theorem test_program_3 :
    let p := State.reset.params
    let s := advanceN 8 (State.reset.withSchedule (programEvents p
      [.wr (.named .srcFreq) 160000000, .wr (.named .tgtFreq) 12000000, .wr (.named .baseDiv) 13, .solve,
        .wr (.named .tgtFreq) 16000000, .wr (.named .baseDiv) 10, .solve] ++ [.engine]))
    statusOf s = 0x202#32 ∧ resultsOf s = (13#32, 1#32, 3#32) ∧ readReg .tgtFreq s = 0x00F42400#32 := by
  decide +kernel

/-! ### The solve: V-S1 to V-S28, V-X1 to V-X14 -/

/-- V-S1 to V-S8: `(I, N, D, STATUS)`. -/
theorem test_solver_paths :
    (view (solve Params.default (inputs 160000000 16000000 10)) = (10, 0, 1, 0x2#32))
    ∧ (view (solve Params.default (inputs 0xFFFFFFFF 0xFFFFFFFF 1)) = (1, 0, 1, 0x2#32))
    ∧ (view (solve Params.default (inputs 160000000 12000000 13)) = (13, 1, 3, 0x202#32))
    ∧ (view (solve Params.default (inputs 160000000 11289600 14)) = (14, 5, 29, 0x302#32))
    ∧ (view (solve (params 16 .doc) (inputs 160000000 11289600 14 32 16)) = (14, 76, 441, 0x202#32))
    ∧ (view (solve Params.default (inputs 1007 100 10)) = (10, 3, 43, 0x302#32))
    ∧ (view (solve Params.default (inputs 909 100 9)) = (9, 1, 11, 0x302#32))
    ∧ (view (solve Params.default (inputs 1001 100 10)) = (10, 0, 2, 0x302#32)) := by decide +kernel

/-- V-S9 to V-S16. -/
theorem test_solver_boundaries :
    (view (solve Params.default (inputs 100 30 4)) = (4, 2, 3, 0x602#32))
    ∧ (view (solve Params.default (inputs 10 20 0)) = (0, 1, 2, 0x202#32))
    ∧ (view (solve Params.default (inputs 3 7 0)) = (0, 3, 7, 0x202#32))
    ∧ (view (solve Params.default (inputs 125 63 1)) = (1, 62, 63, 0x202#32))
    ∧ (view (solve Params.default (inputs 12501 6300 1)) = (2, 0, 1, 0x102#32))
    ∧ (view (solve (params 6 .observed) (inputs 251 126 1)) = (1, 2, 2, 0x302#32))
    ∧ (view (solve Params.default (inputs 1099 100 10)) = (11, 0, 1, 0x102#32))
    ∧ (view (solve (params 6 .observed) (inputs 1099 100 10)) = (10, 2, 2, 0x302#32)) := by decide +kernel

/-- V-S17 to V-S22. -/
theorem test_solver_small_denominators :
    (view (solve Params.default (inputs 1007 100 10 32 1)) = (11, 0, 1, 0x102#32))
    ∧ (view (solve Params.default (inputs 1007 100 10 32 2)) = (10, 0, 2, 0x302#32))
    ∧ (view (solve Params.default (inputs 1050 100 10 32 2)) = (10, 1, 2, 0x202#32))
    ∧ (view (solve Params.default (inputs 1000 100 5)) = (6, 0, 1, 0x102#32))
    ∧ (view (solve Params.default (inputs 5 1 3)) = (4, 0, 1, 0x102#32))
    ∧ (view (solve Params.default (inputs 25699 100 255 8 6)) = (256, 0, 1, 0x902#32)) := by decide +kernel

/-- V-S23 to V-S28. -/
theorem test_solver_flags :
    (view (solve Params.default (inputs 25500 100 255 8 6)) = (255, 0, 1, 0x2#32))
    ∧ (view (solve Params.default (inputs 1007 100 10 0 6)) = (10, 3, 43, 0xB02#32))
    ∧ (view (solve Params.default (inputs 10 20 0 0 6)) = (0, 1, 2, 0x202#32))
    ∧ (view (solve Params.default (inputs 1025 100 10)) = (10, 1, 4, 0x202#32))
    ∧ (view (solve Params.default (inputs 1 0xFFFFFFFF 0xFFFFFFFE)) = (0xFFFFFFFF, 0, 1, 0x502#32))
    ∧ (view (solve Params.default (inputs 95 10 10)) = (10, 1, 2, 0x602#32)) := by decide +kernel

/-- V-X1 to V-X9: the errors and their order. -/
theorem test_solver_errors :
    ([inputs 100 0 1, inputs 0 100 0, inputs 0 0 0 32 0, inputs 0 100 5 40 0, inputs 100 30 3 32 0,
        inputs 100 30 3 32 7, inputs 100 30 3 33 6].map fun x => (view (solve Params.default x)).2.2.2)
      = [0x14#32, 0x24#32, 0x14#32, 0x24#32, 0x34#32, 0x34#32, 0x34#32]
    ∧ (view (solve (params 16 .doc) (inputs 100 30 3 32 17))).2.2.2 = 0x34#32
    ∧ (view (solve (params 6 .observed) (inputs 100 30 3 32 1))).2.2.2 = 0x34#32 := by decide +kernel

/-- V-X10 to V-X14. V-X10's row has `I = 3`; the rule it cites gives `B + 1 = 4` (R158, log entry 20). -/
theorem test_solver_edges :
    view (solve Params.default (inputs 100 30 3 32 1)) = (4, 0, 1, 0x102#32)
    ∧ (view (solve Params.default (inputs 1 0xFFFFFFFF 0xFFFFFFFF))).2.2.2 = 0x44#32
    ∧ (view (solve Params.default (inputs 0xFFFFFFFF 0xFFFFFFFF 0xFFFFFFFF))).2.2.2 = 0x44#32
    ∧ view (solve Params.default (inputs 0xFFFFFFFF 1 0xFFFFFFFF)) = (0xFFFFFFFF, 0, 1, 0x2#32)
    ∧ view (solve Params.default (inputs 100 30 3 0 6)) = (3, 1, 3, 0xA02#32) := by decide +kernel

/-! ### Witnesses: states and operands that meet the hypotheses of each obligation -/

/-- ResetValueOfEveryRegister: other parameters than the defaults. -/
theorem witness_ResetValueOfEveryRegister :
    let p : Params := ⟨64, 12, .observed⟩
    let s := State.initial p []
    p.wf = true ∧ s.params = p ∧ s.block = Block.reset p Snapshot.zero := by decide

/-- ResetEventSetsEveryRegister. -/
theorem witness_ResetEventSetsEveryRegister :
    (doneState.withSchedule [.reset, .engine]).schedule = .reset :: [.engine] := by decide

/-- An entry that is no `SOLVE` written to `CTRL`: the engine's turn. -/
theorem engine_not_solve (p : Params) : ¬ Event.IsSolve p .engine := by
  rintro ⟨a, v, h, -⟩
  cases h

/-- An entry that is no `SOLVE` written to `CTRL`: a `CLEAR`. -/
theorem clear_not_solve (p : Params) : ¬ Event.IsSolve p (.bus (encodeAccess p (.wrCtrl 2#32))) := by
  rintro ⟨a, v, h, hd, hv⟩
  cases h
  have h2 : decodeAccess p (encodeAccess p (.wrCtrl 2#32)) = .ok (.wrCtrl 2#32) :=
    decodeAccess_write p .ctrl 2#32
  rw [h2] at hd
  cases hd
  exact absurd hv (by decide)

/-- ResetAbandonsRunningSolve: a running solve, a reset, then a `CLEAR` and the engine's turn. -/
theorem witness_ResetAbandonsRunningSolve :
    let es := [Event.bus (encodeAccess busyState.params (.wrCtrl 2#32)), .engine]
    let s := busyState.withSchedule (.reset :: es)
    s.block.status.busy = true ∧ s.schedule = .reset :: es ∧ ∀ e ∈ es, ¬ e.IsSolve s.params := by
  refine ⟨rfl, rfl, fun e he => ?_⟩
  simp only [List.mem_cons, List.not_mem_nil, or_false] at he
  rcases he with rfl | rfl
  · exact clear_not_solve _
  · exact engine_not_solve _

/-- ControlStatusResultReads: a coherent busy `STATUS`. -/
theorem witness_ControlStatusResultReads :
    busyState.block.status.Coherent ∧ busyState.block.status.busy = true :=
  ⟨⟨fun _ => by decide, by decide, by decide, by decide, by decide⟩, rfl⟩

/-- ReadsHaveNoSideEffects: a read, another read between, and the read again. -/
theorem witness_ReadsHaveNoSideEffects :
    exec (readInstr .resNum) doneState = .next (busRead .resNum doneState)
    ∧ exec (readInstr .resNum) ([Reg.status].foldl (fun w q => busRead q w) (busRead .resNum doneState))
      = .next (busRead .resNum (busRead .status (busRead .resNum doneState))) := ⟨rfl, rfl⟩

/-- DataWritesChangeOnlyTheirRegister: an input register, `CONSTRAINTS`, and a register that ignores writes. -/
theorem witness_DataWritesChangeOnlyTheirRegister :
    (Reg.srcFreq ≠ .ctrl ∧ Reg.isInput .srcFreq = true) ∧ (Reg.constraints ≠ .ctrl ∧ Reg.isInput .constraints = true)
    ∧ (Reg.resDen ≠ .ctrl ∧ Reg.isInput .resDen = false) ∧ Reg.status ≠ .srcFreq := by decide

/-- WindowIsLittleEndian: the highest lane. -/
theorem witness_WindowIsLittleEndian : 3 < 4 ∧ windowByte (Reg.srcFreq.offset + 3) doneState = 0x09#8 := by decide

/-- SolveTakesSnapshotAndSetsBusy, ClearZeroesStatus, ReservedCommandsReportBadCommand: idle, with a result. -/
theorem witness_idle_commands :
    doneState.block.status.busy = false ∧ (∃ t, exec (.solve 1#28) doneState = .next t)
    ∧ (∃ t, exec (.clear 1#28) doneState = .next t) := ⟨rfl, ⟨_, rfl⟩, ⟨_, rfl⟩⟩

/-- ReservedCommandsReportBadCommand: the last of the list. -/
theorem witness_ReservedCommandsReportBadCommand :
    errorState.block.status.busy = false ∧ Instr.rsvdCmdF 0#28 ∈
      [Instr.rsvdCmd3 0#28, .rsvdCmd4 0#28, .rsvdCmd5 0#28, .rsvdCmd6 0#28, .rsvdCmd7 0#28, .rsvdCmd8 0#28,
        .rsvdCmd9 0#28, .rsvdCmdA 0#28, .rsvdCmdB 0#28, .rsvdCmdC 0#28, .rsvdCmdD 0#28, .rsvdCmdE 0#28,
        .rsvdCmdF 0#28] := by decide

/-- CtrlWritesDroppedWhileBusy, and the first clause of CtrlWritePerformsItsCommand. -/
theorem witness_CtrlWritesDroppedWhileBusy : busyState.block.status.busy = true := rfl

/-- CtrlWritePerformsItsCommand: one word for each clause, the reserved codes at both ends. -/
theorem witness_CtrlWritePerformsItsCommand :
    doneState.block.status.busy = false
    ∧ (0xFFFFFFF0#32).extractLsb' 0 4 = 0#4 ∧ (0x12345671#32).extractLsb' 0 4 = 1#4
    ∧ (0x2#32).extractLsb' 0 4 = 2#4 ∧ 3 ≤ ((0x3#32).extractLsb' 0 4).toNat
    ∧ 3 ≤ ((0xF#32).extractLsb' 0 4).toNat := by decide

/-- CtrlWriteIsItsDecodedCommand: two words of one command. -/
theorem witness_CtrlWriteIsItsDecodedCommand :
    (0xFFFFFFF1#32).extractLsb' 0 4 = (0x1#32).extractLsb' 0 4 ∧ 0xFFFFFFF1#32 ≠ 0x1#32 := by decide

/-- A busy state whose snapshot holds given inputs. -/
def solving (s t b : Word) (es : List Event := []) : State := (running s t b 0 0 1).withSchedule es

/-- CompletionWritesResult: each path, with the engine's turn scheduled and with nothing scheduled. -/
theorem witness_CompletionWritesResult :
    (solving 10 5 2).EngineNext ∧ (solving 10 5 2 [.engine, .reset]).EngineNext
    ∧ (solving 10 5 2).block.status.busy = true
    ∧ solve Params.default (solving 10 5 2).block.snap.inputs = .ok ⟨2, 0, 1, .exact, false, false⟩
    ∧ solve Params.default (solving 5 1 3).block.snap.inputs = .ok ⟨4, 0, 1, .carry, false, false⟩
    ∧ solve Params.default (solving 10 20 0).block.snap.inputs = .ok ⟨0, 1, 2, .searchExact, false, false⟩
    ∧ solve Params.default (solving 1001 100 10).block.snap.inputs = .ok ⟨10, 0, 2, .searchBest, false, false⟩ :=
  ⟨.inl rfl, .inr ⟨_, rfl⟩, rfl, by decide +kernel, by decide +kernel, by decide +kernel, by decide +kernel⟩

/-- CompletionReportsError: each error of a solve. -/
theorem witness_CompletionReportsError :
    (solving 1 0 0).EngineNext ∧ (solving 1 0 0).block.status.busy = true
    ∧ solve Params.default (solving 1 0 0).block.snap.inputs = .error .targetZero
    ∧ solve Params.default (solving 0 1 0).block.snap.inputs = .error .sourceZero
    ∧ solve (params 5 .doc) (solving 1 1 0).block.snap.inputs = .error .badConstraints
    ∧ solve Params.default (solving 1 2 0xFFFFFFFF).block.snap.inputs = .error .carryOverflow :=
  ⟨.inl rfl, rfl, by decide +kernel, by decide +kernel, by decide +kernel, by decide +kernel⟩

/-- EngineStepsExactlyWhenBusy: the engine is next while idle and while busy. -/
theorem witness_EngineStepsExactlyWhenBusy :
    doneState.EngineNext ∧ doneState.block.status.busy = false
    ∧ busyState.EngineNext ∧ busyState.block.status.busy = true := ⟨.inl rfl, rfl, .inl rfl, rfl⟩

/-- StepRunsDecodedAccess: a read of `STATUS` by its address, and a command by its access. -/
theorem witness_StepRunsDecodedAccess :
    let s := doneState.withSchedule [.bus ⟨0x14, 4, .read⟩]
    let t := doneState.withSchedule [.bus (encodeAccess doneState.params (.clear 7#28))]
    (s.schedule = .bus ⟨0x14, 4, .read⟩ :: [] ∧ decodeAccess s.params ⟨0x14, 4, .read⟩ = .ok .rdStatus)
    ∧ t.schedule = .bus (encodeAccess t.params (.clear 7#28)) :: [] := by decide +kernel

/-- UnsupportedAccessFaults: another size at the first byte of the window, 32 bits at its last, a key. -/
theorem witness_UnsupportedAccessFaults :
    (State.reset.params.baseAddr ≤ 0 ∧ 0 < State.reset.params.baseAddr + 64 ∧ (1 : Nat) ≠ 4)
    ∧ (State.reset.params.baseAddr ≤ 63 ∧ 63 < State.reset.params.baseAddr + 64
        ∧ (63 - State.reset.params.baseAddr) % 4 ≠ 0)
    ∧ (0x15#7).extractLsb' 0 2 ≠ 0#2 := by decide

/-- SupportedAccessesExecute: a read of the first and a write of the last word of the window. -/
theorem witness_SupportedAccessesExecute :
    let p := State.reset.params
    (State.reset.withSchedule [.bus ⟨p.baseAddr + Reg.srcFreq.offset, 4, .read⟩]).schedule
      = .bus ⟨p.baseAddr + 0, 4, .read⟩ :: []
    ∧ (State.reset.withSchedule [.bus ⟨p.baseAddr + Reg.rsvd3C.offset, 4, .write 1#32⟩]).schedule
      = .bus ⟨p.baseAddr + 0x3C, 4, .write 1#32⟩ :: [] := by decide

/-- StopsAreExactlyUnsupportedOrOutside: both sides of each clause, on either side of the window's end. -/
theorem witness_StopsAreExactlyUnsupportedOrOutside :
    step (State.reset.withSchedule [.bus ⟨63, 1, .read⟩]) = .fault (.unsupportedAccess 63 1 false)
    ∧ Access.touchesWindow State.reset.params ⟨63, 1, .read⟩ = true
    ∧ step (State.reset.withSchedule [.bus ⟨64, 4, .read⟩]) = .refused (.outsideWindow 64 4)
    ∧ Access.touchesWindow State.reset.params ⟨64, 4, .read⟩ = false := ⟨rfl, rfl, rfl, rfl⟩

/-- FaultRecordNeverCleared: a step that faults, and a step that does not. -/
theorem witness_FaultRecordNeverCleared :
    step (State.reset.withSchedule [.bus ⟨2, 4, .read⟩]) = .fault (.unsupportedAccess 2 4 false)
    ∧ step (State.reset.withSchedule [.reset]) = .next (resetEvent State.reset) := ⟨rfl, rfl⟩

/-- InvariantHoldsAfterReset: the parameters at the ends of their ranges. -/
theorem witness_InvariantHoldsAfterReset :
    Params.wf ⟨0, 1, .observed⟩ = true ∧ Params.wf ⟨0xFFFFFFC0, 16, .doc⟩ = true := by decide

/-- The invariant of a state with a result, with a legal and coherent `STATUS`. -/
theorem doneState_inv : doneState.Inv where
  legalParams := by decide
  block :=
    { coherent := ⟨by decide, by decide, by decide, by decide, by decide⟩
      flagsOnlyWhenDone := fun h => nomatch h
      resultOfSnapshot := fun _ => ⟨⟨14, 5, 29, .searchBest, false, false⟩, by decide +kernel, rfl, rfl, rfl, rfl,
        rfl, rfl⟩
      errorOfSnapshot := fun h => nomatch h
      denominatorPositive := (by decide : 29#32 ≠ 0#32) }

/-- The invariant does not speak of the schedule. -/
theorem inv_withSchedule {s : State} (h : s.Inv) (es : List Event) : (s.withSchedule es).Inv :=
  ⟨h.legalParams, h.block⟩

/-- The invariant of a running solve. -/
theorem busyState_inv : busyState.Inv where
  legalParams := by decide
  block :=
    { coherent := ⟨fun _ => by decide, by decide, by decide, by decide, by decide⟩
      flagsOnlyWhenDone := fun _ => ⟨rfl, rfl, rfl⟩
      resultOfSnapshot := fun h => nomatch h
      errorOfSnapshot := fun h => nomatch h
      denominatorPositive := (by decide : 29#32 ≠ 0#32) }

/-- EveryStepKeepsInvariant: the completion of V-S4, and a reserved command on its result. -/
theorem witness_EveryStepKeepsInvariant :
    busyState.Inv ∧ step busyState = .next (complete busyState)
    ∧ (doneState.withSchedule [.bus ⟨0x10, 4, .write 7⟩]).Inv
    ∧ step (doneState.withSchedule [.bus ⟨0x10, 4, .write 7⟩]) = .next (rejectCommand doneState) :=
  ⟨busyState_inv, rfl, inv_withSchedule doneState_inv _, rfl⟩

/-- StatusRelationsInReachableStates: a reachable state with a running solve, and one with an error. -/
theorem witness_StatusRelationsInReachableStates :
    let s := State.initial Params.default [.bus ⟨0x10, 4, .write 1⟩]
    (Reachable (advance s) ∧ (advance s).block.status.busy = true)
    ∧ Reachable (advance (advance s)) ∧ (advance (advance s)).block.status.err = true :=
  ⟨⟨.next _ (.initial _ _ (by decide)), by decide +kernel⟩, .next _ (.next _ (.initial _ _ (by decide))),
    by decide +kernel⟩

/-- BusyChangesOnlyBySolveCompletionReset, SnapshotWrittenOnlyByAcceptedSolve: a `SOLVE` on other inputs than the
snapshot's. -/
theorem witness_solve_step :
    let s := State.reset.withSchedule [.bus ⟨0x10, 4, .write 1⟩]
    step s = .next (startSolve State.reset) ∧ s.block.status.busy = false
    ∧ (startSolve State.reset).block.status.busy = true ∧ (∀ rest, s.schedule ≠ .reset :: rest)
    ∧ (startSolve State.reset).block.snap ≠ s.block.snap :=
  ⟨rfl, rfl, rfl, fun _ h => by simp at h, by decide⟩

/-- BusyChangesOnlyBySolveCompletionReset, ResultsChangeOnlyByCompletionOrReset: a completion with a result, and a
reset of a running solve. -/
theorem witness_completion_and_reset_steps :
    (step (solving 10 5 2) = .next (complete (solving 10 5 2))
      ∧ (complete (solving 10 5 2)).block.status.busy = false ∧ (complete (solving 10 5 2)).block.resInt = 2#32)
    ∧ step (busyState.withSchedule [.reset]) = .next (resetEvent busyState)
    ∧ (resetEvent busyState).block.status.busy = false ∧ (resetEvent busyState).block.resInt ≠ busyState.block.resInt :=
  ⟨⟨rfl, by decide +kernel, by decide +kernel⟩, rfl, rfl, by decide⟩

/-- RunningSolveEnds: with a read scheduled before the engine can move. -/
theorem witness_RunningSolveEnds :
    (busyState.withSchedule [.bus ⟨0x14, 4, .read⟩]).block.status.busy = true := rfl

/-- SimultaneousEventsInBothOrders. -/
theorem witness_SimultaneousEventsInBothOrders :
    busyState.block.status.busy = true ∧ Reg.isInput .tgtFreq = true := by decide

/-- IdleSnapshotIsUnobservable: two idle states with different snapshots. -/
theorem witness_IdleSnapshotIsUnobservable :
    SameButIdleSnapshot doneState (doneState.withSnap Snapshot.zero)
    ∧ doneState.block.snap ≠ (doneState.withSnap Snapshot.zero).block.snap :=
  ⟨⟨rfl, rfl, rfl, rfl, rfl, rfl, fun h => nomatch h⟩, by decide⟩

/-- SolveAfterResetReportsTargetZero: after a run that left a result. -/
theorem witness_SolveAfterResetReportsTargetZero :
    (doneState.withSchedule [.reset, .bus (encodeAccess doneState.params (.solve 3#28)), .engine]).schedule
      = .reset :: .bus (encodeAccess doneState.params (.solve 3#28)) :: .engine :: [] := rfl

/-- StatusThenResultsAreCoherent: a `CLEAR` and an engine's turn after `DONE`. -/
theorem witness_StatusThenResultsAreCoherent :
    let es := [Event.bus (encodeAccess doneState.params (.wrCtrl 2#32)), .engine]
    let s := doneState.withSchedule (es ++ [.reset])
    s.Inv ∧ s.block.status.busy = false ∧ s.block.status.done = true ∧ s.schedule = es ++ [.reset]
    ∧ ∀ e ∈ es, e ≠ .reset ∧ ¬ e.IsSolve s.params := by
  refine ⟨inv_withSchedule doneState_inv _, rfl, rfl, rfl, fun e he => ?_⟩
  simp only [List.mem_cons, List.not_mem_nil, or_false] at he
  rcases he with rfl | rfl
  · exact ⟨by decide, clear_not_solve _⟩
  · exact ⟨by decide, engine_not_solve _⟩

/-- EncodeOfDecode: a write with a byte after it. -/
theorem witness_EncodeOfDecode :
    decode .bus [0x44#8, 1#8, 2#8, 3#8, 4#8, 5#8] = .ok (.wrTgtFreq 0x04030201#32, [5#8]) := by decide +kernel

/-- AccessDecodesToItsOperation: an operation of each kind. -/
theorem witness_AccessDecodesToItsOperation :
    Instr.op .rdCaps = .read .caps ∧ Instr.op (.wrCtrl 1#32) = .write .ctrl 1#32
    ∧ Instr.op (.solve 5#28) = .command 1#4 5#28 := by decide

/-- StatusAndCapsWordsByBit: the largest width, under the rule that sets bit 8. -/
theorem witness_StatusAndCapsWordsByBit :
    Params.wf ⟨0, 16, .observed⟩ = true ∧ capsWord ⟨0, 16, .observed⟩ = 0x110#32 := by decide

/-- ConfigSetsTheFourInputs: the largest values. -/
theorem witness_ConfigSetsTheFourInputs :
    let p := State.reset.params
    let l := AsmLine.config 0xFFFFFFFF 0xFFFFFFFF 0xFFFFFFFF 255 255
    l.wf = true ∧ 255 < 256
    ∧ (State.reset.withSchedule (programEvents p [l] ++ [.engine])).schedule = programEvents p [l] ++ [.engine] := by
  decide +kernel

/-- Inputs that pass the validation. -/
theorem valid_of {p : Params} {x : Inputs} (h : x.tgtFreq ≠ 0 ∧ x.srcFreq ≠ 0 ∧ badConstraints p x = false) :
    x.Valid p := ⟨h.1, h.2.1, h.2.2⟩

/-- ErrorsReportedInPriorityOrder: each clause, the constraints at each of their bounds. -/
theorem witness_ErrorsReportedInPriorityOrder :
    (inputs 0 0 0 33 0).tgtFreq = 0
    ∧ ((inputs 0 1 0 33 0).tgtFreq ≠ 0 ∧ (inputs 0 1 0 33 0).srcFreq = 0)
    ∧ ((inputs 1 1 0 32 0).denBits = 0 ∧ Params.default.denBitsMax < (inputs 1 1 0 32 7).denBits
      ∧ 32 < (inputs 1 1 0 33 6).intBits ∧ (inputs 1 1 0 32 1).denBits = 1)
    ∧ solve Params.default (inputs 1 2 0xFFFFFFFF) = .error .carryOverflow := by decide +kernel

/-- ExactMatchReturnsBase: V-S2. -/
theorem witness_ExactMatchReturnsBase :
    (inputs 0xFFFFFFFF 0xFFFFFFFF 1).Valid Params.default
    ∧ (inputs 0xFFFFFFFF 0xFFFFFFFF 1).srcFreq
      = (inputs 0xFFFFFFFF 0xFFFFFFFF 1).tgtFreq * (inputs 0xFFFFFFFF 0xFFFFFFFF 1).baseDiv :=
  ⟨valid_of (by decide), by decide⟩

/-- CarryFiresAboveThreshold: exactly on the threshold of either rule (V-S12, V-S14), and just above (V-S13). -/
theorem witness_CarryFiresAboveThreshold :
    ((inputs 125 63 1).Valid Params.default ∧ freqDiff (inputs 125 63 1) ≠ 0
      ∧ (freqDiff (inputs 125 63 1) : ℚ) / (63 : ℚ) = ((2 : ℚ) ^ 6 - 1 - 1) / ((2 : ℚ) ^ 6 - 1))
    ∧ ((inputs 251 126 1).Valid (params 6 .observed)
      ∧ (freqDiff (inputs 251 126 1) : ℚ) / (126 : ℚ) = (2 * ((2 : ℚ) ^ 6 - 1) - 1) / (2 * ((2 : ℚ) ^ 6 - 1)))
    ∧ ((inputs 12501 6300 1).Valid Params.default
      ∧ (freqDiff (inputs 12501 6300 1) : ℚ) / (6300 : ℚ) > ((2 : ℚ) ^ 6 - 1 - 1) / ((2 : ℚ) ^ 6 - 1))
    ∧ (inputs 1 2 0xFFFFFFFF).Valid Params.default := by
  have h1 : freqDiff (inputs 125 63 1) = 62 := by decide
  have h2 : freqDiff (inputs 251 126 1) = 125 := by decide
  have h3 : freqDiff (inputs 12501 6300 1) = 6201 := by decide
  rw [h1, h2, h3]
  exact ⟨⟨valid_of (by decide), by decide, by norm_num⟩, ⟨valid_of (by decide), by norm_num⟩,
    ⟨valid_of (by decide), by norm_num⟩, valid_of (by decide)⟩

/-- FarBaseCarriesByOne: `FD = T` exactly, below and at the top of `u32`. -/
theorem witness_FarBaseCarriesByOne :
    ((inputs 2 1 1).Valid Params.default ∧ (inputs 2 1 1).tgtFreq ≤ freqDiff (inputs 2 1 1))
    ∧ (inputs 0xFFFFFFFE 1 0xFFFFFFFF).Valid Params.default
    ∧ (inputs 0xFFFFFFFE 1 0xFFFFFFFF).tgtFreq ≤ freqDiff (inputs 0xFFFFFFFE 1 0xFFFFFFFF) :=
  ⟨⟨valid_of (by decide), by decide⟩, valid_of (by decide), by decide⟩

/-- The hypothesis `solve p x = .ok d` of FlagsOfEveryResult, ResultRangesByPath, NumeratorBelowDenominator,
ZeroNumeratorOnlyWithDenominatorOneOrTwo, SearchResultsInLowestTerms, BestPairIsEarliestMinimum and
ErrorOfResultByPathAndSign: each path, `NEG` 0 and 1, `INT_RANGE` 1, both carry rules. -/
theorem witness_results :
    solve Params.default (inputs 10 5 2) = .ok ⟨2, 0, 1, .exact, false, false⟩
    ∧ solve Params.default (inputs 25699 100 255 8 6) = .ok ⟨256, 0, 1, .carry, false, true⟩
    ∧ solve Params.default (inputs 1 0xFFFFFFFF 0xFFFFFFFE) = .ok ⟨0xFFFFFFFF, 0, 1, .carry, true, false⟩
    ∧ solve Params.default (inputs 125 63 1) = .ok ⟨1, 62, 63, .searchExact, false, false⟩
    ∧ solve Params.default (inputs 100 30 4) = .ok ⟨4, 2, 3, .searchExact, true, false⟩
    ∧ solve Params.default (inputs 1007 100 10) = .ok ⟨10, 3, 43, .searchBest, false, false⟩
    ∧ solve Params.default (inputs 1001 100 10) = .ok ⟨10, 0, 2, .searchBest, false, false⟩
    ∧ solve (params 6 .observed) (inputs 251 126 1) = .ok ⟨1, 2, 2, .searchBest, false, false⟩
    ∧ (inputs 25699 100 255 8 6).InRange :=
  ⟨by decide +kernel, by decide +kernel, by decide +kernel, by decide +kernel, by decide +kernel, by decide +kernel,
    by decide +kernel, by decide +kernel, ⟨by decide, by decide, by decide, by decide, by decide⟩⟩

/-- ZeroNumeratorOnlyWithDenominatorOneOrTwo: V-S8's remainder is below `1/(2 D_max)` with `T` above 126. -/
theorem witness_ZeroNumerator :
    (inputs 2001 200 10).Valid Params.default ∧ 2 ≤ (inputs 2001 200 10).denBits ∧ freqDiff (inputs 2001 200 10) ≠ 0
    ∧ 2 * dMax 6 * freqDiff (inputs 2001 200 10) < 200 := ⟨valid_of (by decide), by decide, by decide, by decide⟩

/-- SearchPathByReducedDenominator: a search is reached, with an exact match at `q = D_max` (V-S12), with none at
`q = D_max + 1` (`d = 1/64`) and with none at `q = 100` (V-S6). -/
theorem witness_SearchPathByReducedDenominator :
    ((inputs 125 63 1).ReachesSearch Params.default ∧ 63 / Nat.gcd (freqDiff (inputs 125 63 1)) 63 = 2 ^ 6 - 1)
    ∧ ((inputs 641 64 10).ReachesSearch Params.default
      ∧ 64 / Nat.gcd (freqDiff (inputs 641 64 10)) 64 = 2 ^ 6 - 1 + 1)
    ∧ (inputs 1007 100 10).ReachesSearch Params.default
    ∧ 2 ^ 6 - 1 < 100 / Nat.gcd (freqDiff (inputs 1007 100 10)) 100 :=
  ⟨⟨⟨valid_of (by decide), by decide, by decide⟩, by decide⟩,
    ⟨⟨valid_of (by decide), by decide, by decide⟩, by decide⟩,
    ⟨valid_of (by decide), by decide, by decide⟩, by decide⟩

/-- ResultIndependentOfIntBits: two widths and two limits, one result. -/
theorem witness_ResultIndependentOfIntBits :
    solve (params 6 .doc) (inputs 1007 100 10 0 6) = .ok ⟨10, 3, 43, .searchBest, false, true⟩
    ∧ solve (params 16 .doc) (inputs 1007 100 10 32 6) = .ok ⟨10, 3, 43, .searchBest, false, false⟩ := by
  decide +kernel

/-- OneBitDenominatorNeverSearches: no remainder, a remainder, and a remainder at the top of `u32`. -/
theorem witness_OneBitDenominatorNeverSearches :
    ((inputs 10 5 2 32 1).Valid Params.default ∧ freqDiff (inputs 10 5 2 32 1) = 0)
    ∧ ((inputs 1007 100 10 32 1).Valid Params.default ∧ freqDiff (inputs 1007 100 10 32 1) ≠ 0)
    ∧ (inputs 1 2 0xFFFFFFFF 32 1).Valid Params.default ∧ freqDiff (inputs 1 2 0xFFFFFFFF 32 1) ≠ 0 :=
  ⟨⟨valid_of (by decide), by decide⟩, ⟨valid_of (by decide), by decide⟩, valid_of (by decide), by decide⟩

/-- ObservedRuleSearchesTheBand: V-S14, at the upper end of the band. -/
theorem witness_ObservedRuleSearchesTheBand :
    (inputs 251 126 1).Valid (params 6 .observed) ∧ freqDiff (inputs 251 126 1) ≠ 0
    ∧ (dMax 6 - 1) * 126 < freqDiff (inputs 251 126 1) * dMax 6
    ∧ freqDiff (inputs 251 126 1) * (2 * dMax 6) ≤ (2 * dMax 6 - 1) * 126
    ∧ Params.wf (params 6 .observed) = true := ⟨valid_of (by decide), by decide, by decide, by decide, by decide⟩

/-- IntermediateWidthsSuffice: the widest product, and a search over all of `[2, D_max]` with `DB = 16`. -/
theorem witness_IntermediateWidthsSuffice :
    Params.wf (params 16 .doc) = true
    ∧ (inputs 1 0xFFFFFFFF 0xFFFFFFFF 32 16).InRange ∧ (inputs 1 0xFFFFFFFF 0xFFFFFFFF 32 16).Valid (params 16 .doc)
    ∧ (inputs 0x7FFFFFFF 0xFFFFFFFF 0 32 16).ReachesSearch (params 16 .doc) ∧ 65535 ≤ dMax 16 :=
  ⟨by decide, ⟨by decide, by decide, by decide, by decide, by decide⟩, valid_of (by decide),
    ⟨valid_of (by decide), by decide, by decide⟩, by decide⟩

end Sys2Proof.Tests
end

/-! ## The state, its invariant and the idle snapshot (spec/10_state.md)

What a step does to `STATUS`, the results and the snapshot is said once, in `step_solveEffect`; the invariant and
the frame statements follow from it. That no run can tell an idle block's snapshot rests on `advance_withSnap`. -/

namespace Sys2Proof.Machine

/-! ### What a step does to `STATUS`, the results and the snapshot -/

/-- The two blocks have the same `STATUS`, results and snapshot; the input registers are left out. -/
structure Block.SameSolve (b c : Block) : Prop where
  status : b.status = c.status
  resInt : b.resInt = c.resInt
  resNum : b.resNum = c.resNum
  resDen : b.resDen = c.resDen
  snap : b.snap = c.snap

theorem Block.SameSolve.refl (b : Block) : b.SameSolve b := ⟨rfl, rfl, rfl, rfl, rfl⟩

/-- What one step from `s` can do to the block, the input registers aside: `b` is the block it leaves. -/
inductive SolveEffect (s : State) (b : Block) : Prop where
  /-- A read, a data write, a dropped command or an idle engine's turn. -/
  | kept (same : b.SameSolve s.block)
  /-- The completion (41_commands.md R139). -/
  | completed (next : s.EngineNext) (busy : s.block.status.busy = true) (block : b = (complete s).block)
  /-- A reset (70_reset_and_hazards.md R230). -/
  | reset (rest : List Event) (head : s.schedule = .reset :: rest) (snap : Snapshot)
      (block : b = Block.reset s.params snap)
  /-- An accepted `SOLVE` (41_commands.md R132). -/
  | started (e : Event) (rest : List Event) (head : s.schedule = e :: rest) (solve : e.IsSolve s.params)
      (idle : s.block.status.busy = false) (block : b = (startSolve s).block)
  /-- `CLEAR` (41_commands.md R134). -/
  | cleared (idle : s.block.status.busy = false) (block : b = (clearStatus s).block)
  /-- A reserved command (41_commands.md R136). -/
  | rejected (idle : s.block.status.busy = false) (block : b = (rejectCommand s).block)

@[simp] theorem complete_withSchedule (s : State) (es : List Event) :
    complete (s.withSchedule es) = (complete s).withSchedule es := by
  unfold complete
  simp only [State.withSchedule_params, State.withSchedule_block]
  cases solve s.params s.block.snap.inputs <;> rfl

/-- A write to `CTRL` whose word carries the command `SOLVE` is a `SOLVE` entry. -/
theorem isSolve_of_decode {p : Params} {a : Access} {v : Word}
    (hd : decodeAccess p a = .ok (writeInstr .ctrl v)) (hc : Command.ofCode (v.extractLsb' 0 4) = .solve) :
    (Event.bus a).IsSolve p :=
  ⟨a, v, rfl, hd, Command.ofCode_eq_solve.1 hc⟩

/-- The engine's turn completes a running solve and leaves an idle block. -/
theorem engineTurn_solveEffect {s : State} (hn : s.EngineNext) (es : List Event) :
    SolveEffect s (engineTurn (s.withSchedule es)).block := by
  cases hb : s.block.status.busy with
  | false => exact .kept (by rw [engineTurn_idle (by exact hb)]; exact .refl _)
  | true => exact .completed hn hb (by rw [engineTurn_busy (by exact hb), complete_withSchedule]; rfl)

/-- A bus write stores an input register, does nothing, or performs a command. -/
theorem busWrite_solveEffect {s : State} {a : Access} {rest : List Event} {r : Reg} {v : Word}
    (hs : s.schedule = .bus a :: rest) (hd : decodeAccess s.params a = .ok (writeInstr r v)) :
    SolveEffect s (busWrite r v (s.withSchedule rest)).block := by
  rcases busWrite_cases r v (s.withSchedule rest) with ⟨-, -, h⟩ | ⟨-, -, b, h, hst, hsn, hi, hn, hden⟩ | ⟨rfl, h⟩
    <;> rw [h]
  · exact .kept (.refl _)
  · exact .kept ⟨hst, hi, hn, hden, hsn⟩
  · rcases whileIdle_cases (Command.ofCode (v.extractLsb' 0 4)) (s.withSchedule rest) with
      hc | ⟨hb, hcode, hc⟩ | ⟨hb, -, hc⟩ | ⟨hb, -, hc⟩ <;> rw [hc]
    · exact .kept (.refl _)
    · exact .started _ rest hs (isSolve_of_decode hd hcode) hb rfl
    · exact .cleared hb rfl
    · exact .rejected hb rfl

/-- Every step that answers a next state has one of the effects. -/
theorem step_solveEffect {s t : State} (h : step s = .next t) : SolveEffect s t.block := by
  rcases step_cases h with ⟨hn, rfl⟩ | ⟨rest, hs, rfl⟩ | ⟨a, rest, r, hs, hd, rfl⟩ | ⟨a, rest, r, v, hs, hd, rfl⟩
  · exact engineTurn_solveEffect hn _
  · exact .reset rest hs _ rfl
  · exact .kept (.refl _)
  · exact busWrite_solveEffect hs hd

/-- No step changes the parameters (00_scope.md R5). -/
theorem step_params {s t : State} (h : step s = .next t) : t.params = s.params := by
  rcases step_cases h with ⟨-, rfl⟩ | ⟨rest, -, rfl⟩ | ⟨a, rest, r, -, -, rfl⟩ | ⟨a, rest, r, v, -, -, rfl⟩
  · exact (engineTurn_frame _).1
  · rfl
  · rfl
  · exact (busWrite_frame r v _).1

/-! ### Frames of the solve -/

/-- Settles O31: of the effects only an accepted `SOLVE` sets `BUSY`, only a completion and a reset clear it. -/
theorem busyChangesOnlyBySolveCompletionReset : Obligations.BusyChangesOnlyBySolveCompletionReset := by
  intro s t h
  cases step_solveEffect h with
  | kept same =>
    rw [same.status]
    exact ⟨fun hidle hbusy => by simp [hidle] at hbusy, fun hbusy hidle => by simp [hbusy] at hidle⟩
  | completed hn hb hblock => exact ⟨fun hidle => by simp [hb] at hidle, fun _ _ => .inl hn⟩
  | reset rest hs sn hblock => exact ⟨fun _ hbusy => by simp [hblock] at hbusy, fun _ _ => .inr ⟨rest, hs⟩⟩
  | started e rest hs hsolve hidle hblock =>
    exact ⟨fun _ _ => ⟨e, rest, hs, hsolve⟩, fun hbusy => by simp [hidle] at hbusy⟩
  | cleared hidle hblock => simp [hidle, hblock, clearStatus]
  | rejected hidle hblock => simp [hidle, hblock, rejectCommand]

/-- Settles O32: of the effects only a completion with a result and a reset write the results. -/
theorem resultsChangeOnlyByCompletionOrReset : Obligations.ResultsChangeOnlyByCompletionOrReset := by
  intro s t h hne
  cases step_solveEffect h with
  | kept same => exact absurd (by rw [same.resInt, same.resNum, same.resDen]) hne
  | completed hn hb hblock =>
    rcases complete_cases s with ⟨d, hd, -⟩ | ⟨e, -, hc⟩
    · exact .inl ⟨hn, hb, d, hd⟩
    · exact absurd (by rw [hblock, hc]; rfl) hne
  | reset rest hs sn hblock => exact .inr ⟨rest, hs⟩
  | started e rest hs hsolve hidle hblock => exact absurd (by rw [hblock]; rfl) hne
  | cleared hidle hblock => exact absurd (by rw [hblock]; rfl) hne
  | rejected hidle hblock => exact absurd (by rw [hblock]; rfl) hne

/-- Settles O33: of the effects but a reset only an accepted `SOLVE` writes the snapshot, with `Block.capture`. -/
theorem snapshotWrittenOnlyByAcceptedSolve : Obligations.SnapshotWrittenOnlyByAcceptedSolve := by
  intro s t h hreset hne
  cases step_solveEffect h with
  | kept same => exact absurd same.snap hne
  | completed hn hb hblock => exact absurd (by rw [hblock, complete_snap]) hne
  | reset rest hs sn hblock => exact absurd hs (hreset rest)
  | started e rest hs hsolve hidle hblock => exact ⟨hidle, ⟨e, rest, hs, hsolve⟩, by rw [hblock]; rfl⟩
  | cleared hidle hblock => exact absurd (by rw [hblock]; rfl) hne
  | rejected hidle hblock => exact absurd (by rw [hblock]; rfl) hne

/-! ### The numbers of a result fit their registers -/

/-- A number below `2^32` is held in full by a word. -/
theorem toNat_ofNat_word {n : Nat} (h : n < 2 ^ 32) : (BitVec.ofNat 32 n).toNat = n := by
  rw [BitVec.toNat_ofNat, Nat.mod_eq_of_lt h]

/-- The integer part of a result is `B`, or `B + 1` on the carry path, which is not taken at the top of `u32`. -/
theorem solve_int_lt {p : Params} {x : Inputs} {d : Divider} (h : solve p x = .ok d) (hx : x.baseDiv < 2 ^ 32) :
    d.int < 2 ^ 32 := by
  obtain ⟨-, -, -, ⟨-, hd⟩ | ⟨-, -, hb, hd⟩ | ⟨-, -, c, -, hd⟩ | ⟨-, -, c, -, hd⟩⟩ := solve_ok_cases h <;>
    simp only [finish, SolveResult.ok.injEq] at hd <;> subst hd
  · exact hx
  · show x.baseDiv + 1 < 2 ^ 32
    omega
  · exact hx
  · exact hx

/-- The pair a search ends with is the candidate of some denominator in `[2, D_max]` (42_solver.md R159). -/
theorem search_candidate {fd t dmax : Nat} (h : 2 ≤ dmax) {c : Candidate}
    (hc : search fd t dmax = .exact c ∨ search fd t dmax = .best (some c)) :
    ∃ m, 2 ≤ m ∧ m ≤ dmax ∧ c = candidate fd t m := by
  rcases search_cases fd t dmax h with ⟨m, h2, hm, -, -, hs⟩ | ⟨-, m, h2, hm, hs, -⟩ <;>
    refine ⟨m, h2, hm, ?_⟩ <;> simpa [hs, eq_comm] using hc

/-- The pair a valid solve's search ends with: `D` in `[2, D_max]`, `N` at most `D` (42_solver.md R159, R160). -/
theorem search_fraction_bounds {p : Params} {x : Inputs} (ht : x.tgtFreq ≠ 0) (hbad : badConstraints p x = false)
    (hf : freqDiff x ≠ 0) (hk : carries p.carryRule (freqDiff x) x.tgtFreq (dMax x.denBits) = false) {c : Candidate}
    (hc : search (freqDiff x) x.tgtFreq (dMax x.denBits) = .exact c
      ∨ search (freqDiff x) x.tgtFreq (dMax x.denBits) = .best (some c)) :
    2 ≤ c.den ∧ c.den ≤ dMax x.denBits ∧ c.num ≤ c.den := by
  obtain ⟨-, hdm⟩ := two_le_denBits hbad hf hk
  obtain ⟨m, h2, hm, rfl⟩ := search_candidate (by omega) hc
  exact ⟨h2, hm, roundNum_le (freqDiff_lt_of_noCarry hk (dMax_pos hbad) ht)⟩

/-- The fraction of a result: `1 ≤ D ≤ D_max` and `N ≤ D` (42_solver.md R169). -/
theorem solve_fraction_bounds {p : Params} {x : Inputs} {d : Divider} (h : solve p x = .ok d) :
    1 ≤ d.den ∧ d.den ≤ dMax x.denBits ∧ d.num ≤ d.den := by
  obtain ⟨ht, -, hbad, ⟨-, hd⟩ | ⟨-, -, -, hd⟩ | ⟨hf, hk, c, hc, hd⟩ | ⟨hf, hk, c, hc, hd⟩⟩ := solve_ok_cases h <;>
    simp only [finish, SolveResult.ok.injEq] at hd <;> subst hd
  · exact ⟨le_rfl, dMax_pos hbad, Nat.zero_le _⟩
  · exact ⟨le_rfl, dMax_pos hbad, Nat.zero_le _⟩
  · obtain ⟨hlow, hhigh, hnum⟩ := search_fraction_bounds ht hbad hf hk (.inl hc)
    exact ⟨Nat.one_le_of_lt hlow, hhigh, hnum⟩
  · obtain ⟨hlow, hhigh, hnum⟩ := search_fraction_bounds ht hbad hf hk (.inr hc)
    exact ⟨Nat.one_le_of_lt hlow, hhigh, hnum⟩

/-- `P_DEN_BITS_MAX` is at most 16 (00_scope.md R5). -/
theorem denBitsMax_le_of_wf {p : Params} (hp : p.wf = true) : p.denBitsMax ≤ 16 := by
  simp only [Params.wf, Bool.and_eq_true, decide_eq_true_eq] at hp
  exact hp.2

/-- Legal parameters keep `D_max` below `2^16` (42_solver.md R154). -/
theorem dMax_lt {p : Params} {x : Inputs} (hp : p.wf = true) (hbad : badConstraints p x = false) :
    dMax x.denBits < 2 ^ 16 := by
  obtain ⟨-, hle, -⟩ := badConstraints_false_iff.1 hbad
  have hpow : 2 ^ x.denBits ≤ 2 ^ 16 := Nat.pow_le_pow_right (by decide) (hle.trans (denBitsMax_le_of_wf hp))
  unfold dMax
  omega

/-! ### The invariant -/

/-- The invariant of a block speaks of `STATUS`, the results and the snapshot only. -/
theorem Block.Inv.of_sameSolve {p : Params} {b c : Block} (h : c.Inv p) (same : b.SameSolve c) : b.Inv p := by
  obtain ⟨hst, hi, hn, hd, hsn⟩ := same
  exact
    { coherent := hst ▸ h.coherent
      flagsOnlyWhenDone := hst ▸ h.flagsOnlyWhenDone
      resultOfSnapshot := by
        unfold Block.ResultOfSnapshot
        rw [hst, hi, hn, hd, hsn]
        exact h.resultOfSnapshot
      errorOfSnapshot := by
        unfold Block.ErrorOfSnapshot
        rw [hst, hsn]
        exact h.errorOfSnapshot
      denominatorPositive := by
        unfold Block.DenominatorPositive
        rw [hd]
        exact h.denominatorPositive }

theorem Status.clear_coherent : Status.clear.Coherent := by simp [Status.Coherent]

theorem Status.solving_coherent : Status.solving.Coherent := by simp [Status.Coherent]

theorem Status.result_coherent (path : Path) (neg intRange : Bool) :
    (Status.result path neg intRange).Coherent := by simp [Status.Coherent]

/-- The codes of a rejected solve are 1 to 4: not 0, not `BAD_COMMAND`, not 6 or 7 (60_exceptions.md R201). -/
theorem SolveError.code_range (e : SolveError) :
    e.code ≠ 0#3 ∧ e.code ≠ badCommandCode ∧ e.code ≠ 6#3 ∧ e.code ≠ 7#3 := by
  cases e <;> decide

theorem Status.rejected_coherent (e : SolveError) : (Status.rejected e).Coherent := by
  obtain ⟨h0, -, h6, h7⟩ := e.code_range
  simp [Status.Coherent, h0, h6, h7]

/-- A reserved command keeps the relations of an idle `STATUS` (10_state.md R42). -/
theorem Status.badCommand_coherent {st : Status} (h : st.busy = false) : st.badCommand.Coherent := by
  simp [Status.Coherent, h, badCommandCode]

/-- A `STATUS` with neither `DONE` nor `ERR` makes no claim on the snapshot, so what is left of the invariant is
about `STATUS` itself and the denominator. -/
theorem Block.Inv.of_noReport {p : Params} {b : Block} (hc : b.status.Coherent) (hf : b.status.FlagsOnlyWhenDone)
    (hdone : b.status.done = false) (herr : b.status.err = false) (hden : b.resDen ≠ 0#32) : b.Inv p where
  coherent := hc
  flagsOnlyWhenDone := hf
  resultOfSnapshot := fun h => by simp [hdone] at h
  errorOfSnapshot := fun h => by simp [herr] at h
  denominatorPositive := hden

theorem Block.reset_inv (p : Params) (sn : Snapshot) : (Block.reset p sn).Inv p :=
  .of_noReport Status.clear_coherent (fun _ => ⟨rfl, rfl, rfl⟩) rfl rfl (by simp)

theorem startSolve_inv {p : Params} {s : State} (h : s.block.Inv p) : (startSolve s).block.Inv p :=
  .of_noReport Status.solving_coherent (fun _ => ⟨rfl, rfl, rfl⟩) rfl rfl h.denominatorPositive

theorem clearStatus_inv {p : Params} {s : State} (h : s.block.Inv p) : (clearStatus s).block.Inv p :=
  .of_noReport Status.clear_coherent (fun _ => ⟨rfl, rfl, rfl⟩) rfl rfl h.denominatorPositive

/-- A reserved command leaves `DONE` and the results, and its own code is none of the errors 1 to 4. -/
theorem rejectCommand_inv {p : Params} {s : State} (h : s.block.Inv p) (hb : s.block.status.busy = false) :
    (rejectCommand s).block.Inv p where
  coherent := Status.badCommand_coherent hb
  flagsOnlyWhenDone := h.flagsOnlyWhenDone
  resultOfSnapshot := h.resultOfSnapshot
  errorOfSnapshot := fun _ hne => absurd rfl hne
  denominatorPositive := h.denominatorPositive

/-- A completion with a result: each number fits its register, so it is held in full (10_state.md R30). -/
theorem completeOk_inv {s : State} {d : Divider} (hp : s.params.wf = true)
    (hd : solve s.params s.block.snap.inputs = .ok d) : (completeOk d s).block.Inv s.params := by
  have hint : d.int < 2 ^ 32 := solve_int_lt hd s.block.snap.baseDiv.isLt
  obtain ⟨hpos, hle, hnum⟩ := solve_fraction_bounds hd
  obtain ⟨-, -, hbad, -⟩ := solve_ok_cases hd
  have hmax : dMax s.block.snap.inputs.denBits < 2 ^ 16 := dMax_lt hp hbad
  exact
    { coherent := Status.result_coherent _ _ _
      flagsOnlyWhenDone := fun h => nomatch h
      resultOfSnapshot := fun _ =>
        ⟨d, hd, toNat_ofNat_word hint, toNat_ofNat_word (by omega), toNat_ofNat_word (by omega), rfl, rfl, rfl⟩
      errorOfSnapshot := fun h => nomatch h
      denominatorPositive := fun h0 => by
        have h1 : (BitVec.ofNat 32 d.den).toNat = 0 := congrArg BitVec.toNat h0
        rw [toNat_ofNat_word (by omega)] at h1
        omega }

/-- A completion with an error reports the error of `Solve` and leaves the results (41_commands.md R141). -/
theorem completeError_inv {s : State} {e : SolveError} (h : s.block.Inv s.params)
    (he : solve s.params s.block.snap.inputs = .error e) : (completeError e s).block.Inv s.params where
  coherent := Status.rejected_coherent e
  flagsOnlyWhenDone := fun _ => ⟨rfl, rfl, rfl⟩
  resultOfSnapshot := fun h => nomatch h
  errorOfSnapshot := fun _ _ => ⟨e, he, rfl⟩
  denominatorPositive := h.denominatorPositive

theorem complete_inv {s : State} (h : s.Inv) : (complete s).block.Inv s.params := by
  rcases complete_cases s with ⟨d, hd, hc⟩ | ⟨e, he, hc⟩ <;> rw [hc]
  · exact completeOk_inv h.legalParams hd
  · exact completeError_inv h.block he

/-- Settles O29, by the effects of a step: each leaves a block that meets the invariant. -/
theorem everyStepKeepsInvariant : Obligations.EveryStepKeepsInvariant := by
  intro s t hs h
  have hp := step_params h
  refine ⟨hp ▸ hs.legalParams, hp.symm ▸ ?_⟩
  cases step_solveEffect h with
  | kept same => exact hs.block.of_sameSolve same
  | completed hn hb hblock => exact hblock ▸ complete_inv hs
  | reset rest hr sn hblock => exact hblock ▸ Block.reset_inv s.params sn
  | started e rest hr hsolve hidle hblock => exact hblock ▸ startSolve_inv hs.block
  | cleared hidle hblock => exact hblock ▸ clearStatus_inv hs.block
  | rejected hidle hblock => exact hblock ▸ rejectCommand_inv hs.block hidle

/-- The state after reset meets the invariant, whatever the schedule. -/
theorem State.initial_inv {p : Params} (es : List Event) (hp : p.wf = true) : (State.initial p es).Inv :=
  ⟨hp, Block.reset_inv p Snapshot.zero⟩

/-- Settles O28: `State.reset` is the state after reset with the default parameters and nothing scheduled. -/
theorem invariantHoldsAfterReset : Obligations.InvariantHoldsAfterReset :=
  ⟨State.initial_inv (p := Params.default) [] (by decide), fun _ es hp => State.initial_inv es hp⟩

/-- A fault and a refusal leave the block, so every step of the total order keeps the invariant. -/
theorem State.Inv.advance {s : State} (h : s.Inv) : (advance s).Inv := by
  cases ho : step s with
  | next t => rw [advance_next ho]; exact everyStepKeepsInvariant s t h ho
  | fault f => rw [advance_fault ho]; exact ⟨h.legalParams, h.block⟩
  | refused q => rw [advance_refused ho]; exact ⟨h.legalParams, h.block⟩

theorem Reachable.inv {s : State} (h : Reachable s) : s.Inv := by
  induction h with
  | initial p es hp => exact State.initial_inv es hp
  | next s _ ih => exact ih.advance

/-- Settles O30: the relations are part of the invariant. -/
theorem statusRelationsInReachableStates : Obligations.StatusRelationsInReachableStates :=
  fun _ h => h.inv.block.coherent

/-! ### The snapshot of an idle block -/

theorem SameButIdleSnapshot.refl (s : State) : SameButIdleSnapshot s s :=
  ⟨rfl, rfl, rfl, rfl, rfl, rfl, fun _ => rfl⟩

theorem SameButIdleSnapshot.withSnap {s : State} (h : s.block.status.busy = false) (sn : Snapshot) :
    SameButIdleSnapshot s (s.withSnap sn) :=
  ⟨rfl, rfl, rfl, rfl, rfl, rfl, fun hb => by simp [h] at hb⟩

/-- The second of two states that differ at most in the snapshot is the first with its own snapshot. -/
theorem SameButIdleSnapshot.eq_withSnap {s t : State} (h : SameButIdleSnapshot s t) :
    t = s.withSnap t.block.snap := by
  obtain ⟨hp, hb, hs, hr, hf, hfree, -⟩ := h
  have hblock : { s.block with snap := t.block.snap } = t.block := by rw [hb]
  simp only [State.withSnap, State.withBlock, hblock, hp, hs, hr, hf, hfree]

/-- A map of states keeps the relation if it does so from every idle state and another snapshot: while a solve runs
the two states are equal. -/
theorem SameButIdleSnapshot.map {f : State → State}
    (hf : ∀ s sn, s.block.status.busy = false → SameButIdleSnapshot (f s) (f (s.withSnap sn)))
    {s t : State} (h : SameButIdleSnapshot s t) : SameButIdleSnapshot (f s) (f t) := by
  rw [h.eq_withSnap]
  cases hb : s.block.status.busy with
  | false => exact hf s _ hb
  | true => rw [← h.snap hb]; exact .refl _

/-- A read does not use the snapshot (10_state.md R40). -/
theorem busRead_withSnap (r : Reg) (s : State) (sn : Snapshot) :
    busRead r (s.withSnap sn) = (busRead r s).withSnap sn := by
  cases r <;> rfl

/-- A command on an idle block: `SOLVE` overwrites the snapshot, the others leave it. -/
theorem whileIdle_withSnap (c : Command) {s : State} (sn : Snapshot) (h : s.block.status.busy = false) :
    SameButIdleSnapshot (whileIdle c s) (whileIdle c (s.withSnap sn)) := by
  rw [whileIdle_idle h, whileIdle_idle (by exact h)]
  cases c with
  | nop => exact .withSnap h sn
  | solve => exact .refl (startSolve s)
  | clear => exact .withSnap (s := clearStatus s) rfl sn
  | reserved => exact .withSnap (s := rejectCommand s) h sn

/-- A data write leaves `STATUS`; only `CTRL` acts on it. -/
theorem busWrite_status_of_ne_ctrl {r : Reg} (hr : r ≠ .ctrl) (v : Word) (s : State) :
    (busWrite r v s).block.status = s.block.status := by
  rcases busWrite_cases r v s with ⟨-, -, h⟩ | ⟨-, -, b, h, hst, -⟩ | ⟨h, -⟩
  · rw [h]
  · rw [h]; exact hst
  · exact absurd h hr

/-- A data write neither reads nor writes the snapshot. -/
theorem busWrite_withSnap_of_ne_ctrl {r : Reg} (hr : r ≠ .ctrl) (v : Word) (s : State) (sn : Snapshot) :
    busWrite r v (s.withSnap sn) = (busWrite r v s).withSnap sn := by
  cases r with
  | ctrl => exact absurd rfl hr
  | _ => rfl

/-- No operation on an idle block shows its snapshot. -/
theorem exec_withSnap (i : Instr) {s t u : State} {sn : Snapshot} (hidle : s.block.status.busy = false)
    (ht : exec i s = .next t) (hu : exec i (s.withSnap sn) = .next u) : SameButIdleSnapshot t u := by
  rcases i.op_cases with ⟨r, rfl⟩ | ⟨r, v, rfl⟩ | ⟨code, hi, rfl⟩ <;>
    simp only [exec_readInstr, exec_writeInstr, exec_commandInstr, Host.Outcome.next.injEq] at ht hu <;>
    subst ht hu
  · rw [busRead_withSnap]
    exact .withSnap (s := busRead r s) hidle sn
  · by_cases hr : r = .ctrl
    · subst hr
      exact whileIdle_withSnap _ sn hidle
    · rw [busWrite_withSnap_of_ne_ctrl hr]
      exact .withSnap (by rw [busWrite_status_of_ne_ctrl hr, hidle]) sn
  · exact whileIdle_withSnap _ sn hidle

/-! ### The total order by the head of the schedule -/

theorem advance_nil {s : State} (h : s.schedule = []) : advance s = engineTurn s := advance_next (step_nil h)

theorem advance_cons {s : State} {e : Event} {rest : List Event} (h : s.schedule = e :: rest) :
    advance s = outcomeState (s.withSchedule rest) (eventStep e (s.withSchedule rest)) := by
  rw [advance, step_cons h, h, List.tail_cons]

/-- One agent's step from an idle block does not show its snapshot: the engine has nothing to do, and a reset
draws another snapshot. -/
theorem eventStep_withSnap (e : Event) {s : State} (sn : Snapshot) (hidle : s.block.status.busy = false) :
    SameButIdleSnapshot (outcomeState s (eventStep e s))
      (outcomeState (s.withSnap sn) (eventStep e (s.withSnap sn))) := by
  cases e with
  | engine =>
    simp only [eventStep, outcomeState, engineTurn_idle, hidle, State.withSnap_block_status]
    exact .withSnap hidle sn
  | reset => exact .refl (resetEvent s)
  | bus a =>
    simp only [eventStep, masterStep, State.withSnap_params]
    cases decodeAccess s.params a with
    | ok i =>
      obtain ⟨t, ht⟩ := exec_next i s
      obtain ⟨u, hu⟩ := exec_next i (s.withSnap sn)
      simp only [ht, hu, outcomeState]
      exact exec_withSnap i hidle ht hu
    | error err =>
      cases err with
      | outsideWindow => exact .withSnap hidle sn
      | _ => exact .withSnap (s := recordFault _ s) hidle sn

/-- One step of the total order from an idle block does not show its snapshot. -/
theorem advance_withSnap {s : State} (sn : Snapshot) (hidle : s.block.status.busy = false) :
    SameButIdleSnapshot (advance s) (advance (s.withSnap sn)) := by
  cases hs : s.schedule with
  | nil =>
    rw [advance_nil hs, advance_nil (by exact hs), engineTurn_idle hidle, engineTurn_idle (by exact hidle)]
    exact .withSnap hidle sn
  | cons e rest =>
    rw [advance_cons hs, advance_cons (s := s.withSnap sn) hs]
    exact eventStep_withSnap e (s := s.withSchedule rest) sn hidle

/-- The relation holds after any number of steps. -/
theorem SameButIdleSnapshot.advanceN (n : Nat) {s t : State} (h : SameButIdleSnapshot s t) :
    SameButIdleSnapshot (advanceN n s) (advanceN n t) := by
  induction n generalizing s t with
  | zero => exact h
  | succ n ih => exact ih (h.map fun _ sn hidle => advance_withSnap sn hidle)

/-- Settles O36: every step keeps the relation, and related states read alike. -/
theorem idleSnapshotIsUnobservable : Obligations.IdleSnapshotIsUnobservable := by
  intro s t h n
  have hn := h.advanceN n
  exact ⟨hn, hn.readData, readReg_congr_snap hn.block hn.params⟩

/-! ### Reset values -/

/-- `P_DEN_BITS_MAX` fits `DEN_BITS` (00_scope.md R5). -/
theorem Block.reset_denBits_toNat {p : Params} (hp : p.wf = true) (sn : Snapshot) :
    (Block.reset p sn).denBits.toNat = p.denBitsMax := by
  have hle := denBitsMax_le_of_wf hp
  rw [Block.reset_denBits, BitVec.toNat_ofNat, Nat.mod_eq_of_lt (by omega)]

/-- Settles O1, register by register from `Block.reset`. -/
theorem resetValueOfEveryRegister : Obligations.ResetValueOfEveryRegister := by
  refine ⟨fun p sn s hp hparams hblock => ?_, rfl, ⟨Snapshot.zero, rfl⟩, by decide, by decide⟩
  have hden := Block.reset_denBits_toNat hp sn
  have hstatus : Status.clear.word = 0#32 := by decide
  obtain ⟨params, block, schedule, readData, faults, free⟩ := s
  dsimp only at hparams hblock
  subst hparams hblock
  exact ⟨rfl, rfl, rfl, rfl, hden, rfl, hstatus, rfl, rfl, rfl, rfl⟩

end Sys2Proof.Machine

/-! ## The register window (spec/20_memory.md)

What a read and a write do to the sixteen words, which accesses stop and with what record, and what an idle block
keeps until the next `SOLVE` or reset. -/

namespace Sys2Proof.Machine

/-! ### Byte lanes of the window (R50) -/

/-- The four bytes from a register's offset up are the four lanes of what it reads as. -/
theorem windowByte_offset_add (r : Reg) (s : State) {k : Nat} (hk : k < 4) :
    windowByte (r.offset + k) s = lane (readReg r s) k := by
  have hword : (r.offset + k) / 4 = r.sel.toNat := by unfold Reg.offset; omega
  have hlane : (r.offset + k) % 4 = k := by have := r.offset_mod; omega
  rw [windowByte, hword, hlane, BitVec.ofNat_toNat, BitVec.setWidth_eq, Reg.ofSel_sel]

/-- Settles O11: the lanes make up the word by `wordOfBytes_lanes`. -/
theorem windowIsLittleEndian : Obligations.WindowIsLittleEndian := by
  intro r s
  refine ⟨fun k hk => windowByte_offset_add r s hk, ?_⟩
  rw [windowByte_offset_add r s (k := 1) (by omega), windowByte_offset_add r s (k := 2) (by omega),
    windowByte_offset_add r s (k := 3) (by omega), ← Nat.add_zero r.offset,
    windowByte_offset_add r s (k := 0) (by omega), wordOfBytes_lanes]

/-! ### Reads (R55) -/

/-- A series of reads leaves every register. -/
theorem readReg_foldl_busRead (rs : List Reg) (s : State) (q : Reg) :
    readReg q (rs.foldl (fun w r => busRead r w) s) = readReg q s := by
  induction rs generalizing s with
  | nil => rfl
  | cons r rs ih => exact (ih (busRead r s)).trans (readReg_congr rfl rfl q)

/-- Settles O9: a read changes `readData` only, and no register depends on that. -/
theorem readsHaveNoSideEffects : Obligations.ReadsHaveNoSideEffects := by
  intro r s t ht
  obtain rfl : busRead r s = t := by simpa using ht
  have hkeep : ∀ q, readReg q (busRead r s) = readReg q s := readReg_congr rfl rfl
  refine ⟨rfl, rfl, rfl, rfl, rfl, hkeep, fun between u hu => ?_⟩
  obtain rfl := Host.Outcome.next.inj ((exec_readInstr r _).symm.trans hu)
  have hagain : (busRead r (between.foldl (fun w q => busRead q w) (busRead r s))).readData = some (readReg r s) := by
    rw [busRead_readData, readReg_foldl_busRead, hkeep]
  exact ⟨hagain, hagain⟩

/-! ### Writes to a register other than `CTRL` (R56) -/

/-- A register that is no input and not `CTRL` ignores writes. -/
theorem busWrite_of_not_input {r : Reg} (hin : r.isInput = false) (hr : r ≠ .ctrl) (v : Word) (s : State) :
    busWrite r v s = s := by
  rcases busWrite_cases r v s with ⟨-, -, h⟩ | ⟨h, -⟩ | ⟨h, -⟩
  · exact h
  · simp [hin] at h
  · exact absurd h hr

/-- A data write shows in no other register. -/
theorem readReg_busWrite_of_ne {r q : Reg} (hr : r ≠ .ctrl) (hq : q ≠ r) (v : Word) (s : State) :
    readReg q (busWrite r v s) = readReg q s := by
  cases r with
  | ctrl => exact absurd rfl hr
  | srcFreq => cases q with
    | srcFreq => exact absurd rfl hq
    | _ => rfl
  | tgtFreq => cases q with
    | tgtFreq => exact absurd rfl hq
    | _ => rfl
  | baseDiv => cases q with
    | baseDiv => exact absurd rfl hq
    | _ => rfl
  | constraints => cases q with
    | constraints => exact absurd rfl hq
    | _ => rfl
  | _ => rfl

/-- `CONSTRAINTS` keeps the low half of the word written to it (10_state.md R26). -/
theorem constraintsWord_fields (v : Word) :
    constraintsWord (intBitsField v) (denBitsField v) = v &&& 0xFFFF#32 := by
  apply BitVec.eq_of_getLsbD_eq
  intro k hk
  have hmask : (0xFFFF#32).getLsbD k = decide (k < 16) := by interval_cases k <;> rfl
  simp only [constraintsWord, intBitsField, denBitsField, BitVec.getLsbD_append, BitVec.getLsbD_extractLsb',
    BitVec.getLsbD_and, hmask]
  by_cases hint : k < 8
  · simp [hint, show k < 16 by omega]
  · by_cases hden : k < 16
    · simp [hint, hden, show k - 8 < 8 by omega, show 8 + (k - 8) = k by omega]
    · simp [hint, hden, show ¬ k - 8 < 8 by omega]

/-- An input register reads as written. -/
theorem readReg_busWrite_same {r : Reg} (hin : r.isInput = true) (v : Word) (s : State) :
    readReg r (busWrite r v s) = if r = .constraints then v &&& 0xFFFF#32 else v := by
  cases r with
  | constraints => exact constraintsWord_fields v
  | srcFreq | tgtFreq | baseDiv => rfl
  | _ => simp [Reg.isInput] at hin

/-- The same data write again changes nothing more. -/
theorem busWrite_busWrite {r : Reg} (hr : r ≠ .ctrl) (v : Word) (s : State) :
    busWrite r v (busWrite r v s) = busWrite r v s := by
  cases r with
  | ctrl => exact absurd rfl hr
  | _ => rfl

/-- A data write leaves the snapshot. -/
theorem busWrite_snap_of_ne_ctrl {r : Reg} (hr : r ≠ .ctrl) (v : Word) (s : State) :
    (busWrite r v s).block.snap = s.block.snap := by
  cases r with
  | ctrl => exact absurd rfl hr
  | _ => rfl

/-- Settles O10, clause by clause from what a data write does. -/
theorem dataWritesChangeOnlyTheirRegister : Obligations.DataWritesChangeOnlyTheirRegister := by
  intro r v s hr
  obtain ⟨hparams, hsched, hread, hfaults, hfree⟩ := busWrite_frame r v s
  exact ⟨busWrite r v s, exec_writeInstr r v s, fun q hq => readReg_busWrite_of_ne hr hq v s,
    busWrite_status_of_ne_ctrl hr v s, busWrite_snap_of_ne_ctrl hr v s, hparams, hsched, hread, hfaults, hfree,
    fun hin => readReg_busWrite_same hin v s, fun hin => busWrite_of_not_input hin hr v s,
    by rw [exec_writeInstr, busWrite_busWrite hr]⟩

/-! ### Which accesses execute and which stop (R52, R53) -/

/-- Settles O24: the access decodes to its register's operation, and every operation answers a next state. -/
theorem supportedAccessesExecute : Obligations.SupportedAccessesExecute := by
  intro s rest r
  refine ⟨fun hs => ?_, fun v hs => ?_⟩
  · have hstep := step_bus hs (decodeAccess_read s.params r)
    exact ⟨busRead r (s.withSchedule rest), hstep.trans (exec_readInstr _ _), hstep,
      congrArg some (readReg_congr rfl rfl r), rfl⟩
  · have hstep := step_bus hs (decodeAccess_write s.params r v)
    exact ⟨busWrite r v (s.withSchedule rest), hstep.trans (exec_writeInstr _ _ _), hstep⟩

/-- The test of R53, with the offset written out. -/
theorem unsupported_iff {p : Params} {a : Access} :
    a.unsupported p = true ↔ a.size ≠ 4 ∨ ((a.addr : Int) - (p.baseAddr : Int)) % 4 ≠ 0 :=
  decide_eq_true_iff

/-- What a master's access can do, by the two tests of the decoder: refused, faulted or executed. -/
theorem masterStep_cases (a : Access) (s : State) :
    (a.touchesWindow s.params = false ∧ masterStep a s = .refused (.outsideWindow a.addr a.size))
    ∨ (a.touchesWindow s.params = true ∧ a.unsupported s.params = true
        ∧ masterStep a s = .fault (.unsupportedAccess a.addr a.size a.kind.isWrite))
    ∨ (a.touchesWindow s.params = true ∧ a.unsupported s.params = false ∧ ∃ t, masterStep a s = .next t) := by
  rcases decodeAccess_cases s.params a with ⟨hw, hd⟩ | ⟨hw, hu, hd⟩ | ⟨hw, hu, i, hd⟩
  · exact .inl ⟨hw, by simp [masterStep, hd]⟩
  · exact .inr (.inl ⟨hw, hu, by simp [masterStep, hd]⟩)
  · exact .inr (.inr ⟨hw, hu, by rw [masterStep_ok hd]; exact exec_next i s⟩)

/-- Only a master's access can stop: the engine and a reset answer a next state. -/
theorem step_next_or_bus (s : State) :
    (∃ t, step s = .next t)
    ∨ ∃ a rest, s.schedule = .bus a :: rest ∧ step s = masterStep a (s.withSchedule rest) := by
  cases hs : s.schedule with
  | nil => exact .inl ⟨_, step_nil hs⟩
  | cons e rest =>
    cases e with
    | bus a => exact .inr ⟨a, rest, rfl, step_cons hs⟩
    | engine => exact .inl ⟨_, step_engine hs⟩
    | reset => exact .inl ⟨_, step_reset hs⟩

/-- A step faults exactly on an unsupported access to the window. -/
theorem step_eq_fault_iff {s : State} {f : Fault} :
    step s = .fault f ↔ ∃ a rest, s.schedule = .bus a :: rest ∧ a.touchesWindow s.params = true
      ∧ a.unsupported s.params = true ∧ f = .unsupportedAccess a.addr a.size a.kind.isWrite := by
  constructor
  · intro h
    obtain ⟨t, ht⟩ | ⟨a, rest, hs, hstep⟩ := step_next_or_bus s
    · simp [ht] at h
    · rcases masterStep_cases a (s.withSchedule rest) with ⟨-, hm⟩ | ⟨hw, hu, hm⟩ | ⟨-, -, t, hm⟩ <;>
        rw [hstep, hm] at h <;> cases h
      exact ⟨a, rest, hs, hw, hu, rfl⟩
  · rintro ⟨a, rest, hs, hw, hu, rfl⟩
    rw [step_cons hs]
    rcases masterStep_cases a (s.withSchedule rest) with ⟨hw', -⟩ | ⟨-, -, hm⟩ | ⟨-, hu', -⟩
    · simp [hw] at hw'
    · exact hm
    · simp [hu] at hu'

/-- A step is refused exactly on an access to no byte of the window. -/
theorem step_eq_refused_iff {s : State} {q : Refusal} :
    step s = .refused q ↔ ∃ a rest, s.schedule = .bus a :: rest ∧ a.touchesWindow s.params = false
      ∧ q = .outsideWindow a.addr a.size := by
  constructor
  · intro h
    obtain ⟨t, ht⟩ | ⟨a, rest, hs, hstep⟩ := step_next_or_bus s
    · simp [ht] at h
    · rcases masterStep_cases a (s.withSchedule rest) with ⟨hw, hm⟩ | ⟨-, -, hm⟩ | ⟨-, -, t, hm⟩ <;>
        rw [hstep, hm] at h <;> cases h
      exact ⟨a, rest, hs, hw, rfl⟩
  · rintro ⟨a, rest, hs, hw, rfl⟩
    rw [step_cons hs]
    rcases masterStep_cases a (s.withSchedule rest) with ⟨-, hm⟩ | ⟨hw', -⟩ | ⟨hw', -⟩
    · exact hm
    all_goals simp [hw] at hw'

/-- Settles O25: the two equivalences above, with R53's test written out. -/
theorem stopsAreExactlyUnsupportedOrOutside : Obligations.StopsAreExactlyUnsupportedOrOutside := by
  intro s
  refine ⟨fun f => ?_, fun q => step_eq_refused_iff⟩
  simp only [step_eq_fault_iff, unsupported_iff]

/-! ### The record of faulted steps (R53) -/

/-- A step that answers a next state records no fault. -/
theorem step_faults {s t : State} (h : step s = .next t) : t.faults = s.faults := by
  rcases step_cases h with ⟨-, rfl⟩ | ⟨rest, -, rfl⟩ | ⟨a, rest, r, -, -, rfl⟩ | ⟨a, rest, r, v, -, -, rfl⟩
  · obtain ⟨-, -, -, hf, -⟩ := engineTurn_frame (s.withSchedule s.schedule.tail)
    exact hf
  · rfl
  · rfl
  · obtain ⟨-, -, -, hf, -⟩ := busWrite_frame r v (s.withSchedule rest)
    exact hf

/-- A step that faults appends its fault. -/
theorem advance_faults_of_fault {s : State} {f : Fault} (h : step s = .fault f) :
    (advance s).faults = s.faults ++ [f] := by
  rw [advance_fault h]; rfl

/-- One step of the total order clears nothing of the record. -/
theorem faults_prefix_advance (s : State) : s.faults <+: (advance s).faults := by
  cases ho : step s with
  | next t => rw [advance_next ho, step_faults ho]
  | fault f => rw [advance_faults_of_fault ho]; exact List.prefix_append _ _
  | refused q => rw [advance_refused ho]; exact List.prefix_rfl

theorem faults_prefix_advanceN (n : Nat) (s : State) : s.faults <+: (advanceN n s).faults :=
  advanceN_induction (P := fun t => s.faults <+: t.faults) (fun t h => h.trans (faults_prefix_advance t)) n s
    List.prefix_rfl

/-- Settles O26: no step shortens the record, and only a fault lengthens it. -/
theorem faultRecordNeverCleared : Obligations.FaultRecordNeverCleared :=
  ⟨faults_prefix_advanceN, fun _ _ => advance_faults_of_fault, fun _ _ => step_faults⟩

/-- Settles O23: such an access touches the window and fails R53's test. -/
theorem unsupportedAccessFaults : Obligations.UnsupportedAccessFaults := by
  intro s a rest hs hlow hhigh hbad
  have hw : a.touchesWindow s.params = true := by
    simp only [Access.touchesWindow, decide_eq_true_eq]; omega
  have hu : a.unsupported s.params = true := unsupported_iff.2 (hbad.imp_right fun h => by omega)
  have hfault : step s = .fault (.unsupportedAccess a.addr a.size a.kind.isWrite) :=
    step_eq_fault_iff.2 ⟨a, rest, hs, hw, hu, rfl⟩
  refine ⟨hfault, by rw [advance_fault hfault, hs]; rfl, fun n => ?_, fun i hi => ?_, fun key v i hlow hi => ?_⟩
  · refine (faults_prefix_advanceN n (advance s)).subset ?_
    rw [advance_faults_of_fault hfault]
    exact List.mem_append_right _ (List.mem_singleton_self _)
  · obtain ⟨-, hu', -⟩ := decodeAccess_ok hi
    simp [hu] at hu'
  · exact hlow (decodeKey_ok hi).1

/-! ### The results of an idle block (R60) -/

/-- `t` is idle with the parameters and results of `s`. `DONE` is left out: a `CLEAR` takes it and keeps the
results. -/
structure IdleWithResultsOf (s t : State) : Prop where
  idle : t.block.status.busy = false
  params : t.params = s.params
  resInt : t.block.resInt = s.block.resInt
  resNum : t.block.resNum = s.block.resNum
  resDen : t.block.resDen = s.block.resDen

theorem IdleWithResultsOf.refl {s : State} (h : s.block.status.busy = false) : IdleWithResultsOf s s :=
  ⟨h, rfl, rfl, rfl, rfl⟩

theorem IdleWithResultsOf.trans {s t u : State} (hst : IdleWithResultsOf s t) (htu : IdleWithResultsOf t u) :
    IdleWithResultsOf s u :=
  ⟨htu.idle, htu.params.trans hst.params, htu.resInt.trans hst.resInt, htu.resNum.trans hst.resNum,
    htu.resDen.trans hst.resDen⟩

/-- An idle block stays idle with its results through every step but a reset and a `SOLVE`. -/
theorem step_idleWithResultsOf {s t : State} {e : Event} {rest : List Event} (h : step s = .next t)
    (hidle : s.block.status.busy = false) (hs : s.schedule = e :: rest) (hreset : e ≠ .reset)
    (hsolve : ¬ e.IsSolve s.params) : IdleWithResultsOf s t := by
  have hp := step_params h
  cases step_solveEffect h with
  | kept same => exact ⟨same.status ▸ hidle, hp, same.resInt, same.resNum, same.resDen⟩
  | completed hn hb hblock => simp [hidle] at hb
  | reset rest' hr sn hblock =>
    obtain ⟨he, -⟩ := List.cons.inj (hs.symm.trans hr)
    exact absurd he hreset
  | started e' rest' hr hsolve' hidle' hblock =>
    obtain ⟨rfl, -⟩ := List.cons.inj (hs.symm.trans hr)
    exact absurd hsolve' hsolve
  | cleared hidle' hblock => constructor <;> simp [hblock, hp, clearStatus]
  | rejected hidle' hblock => constructor <;> simp [hblock, hp, hidle, rejectCommand]

/-- A fault and a refusal leave the block too. -/
theorem advance_idleWithResultsOf {s : State} {e : Event} {rest : List Event}
    (hidle : s.block.status.busy = false) (hs : s.schedule = e :: rest) (hreset : e ≠ .reset)
    (hsolve : ¬ e.IsSolve s.params) : IdleWithResultsOf s (advance s) := by
  cases ho : step s with
  | next t => rw [advance_next ho]; exact step_idleWithResultsOf ho hidle hs hreset hsolve
  | fault f => rw [advance_fault ho]; exact ⟨hidle, rfl, rfl, rfl, rfl⟩
  | refused q => rw [advance_refused ho]; exact ⟨hidle, rfl, rfl, rfl, rfl⟩

/-- The results stay through any part of a series of entries that holds neither a reset nor a `SOLVE`. -/
theorem advanceN_idleWithResultsOf {es rest : List Event} {s : State} (hidle : s.block.status.busy = false)
    (hs : s.schedule = es ++ rest) (hes : ∀ e ∈ es, e ≠ .reset ∧ ¬ e.IsSolve s.params) {n : Nat}
    (hn : n ≤ es.length) : IdleWithResultsOf s (advanceN n s) := by
  induction es generalizing s n with
  | nil =>
    obtain rfl : n = 0 := by simpa using hn
    exact .refl hidle
  | cons e es ih =>
    cases n with
    | zero => exact .refl hidle
    | succ n =>
      obtain ⟨hreset, hsolve⟩ := hes e List.mem_cons_self
      have hone := advance_idleWithResultsOf hidle hs hreset hsolve
      refine hone.trans (ih hone.idle ?_ (fun e' he' => ?_) (Nat.le_of_succ_le_succ hn))
      · rw [advance_schedule, hs]; rfl
      · rw [hone.params]; exact hes e' (List.mem_cons_of_mem e he')

/-- Settles O38: the invariant gives the result, and the result registers keep it. -/
theorem statusThenResultsAreCoherent : Obligations.StatusThenResultsAreCoherent := by
  intro s es rest hinv hidle hdone hs hes
  obtain ⟨d, hd, hint, hnum, hden, -⟩ := hinv.block.resultOfSnapshot hdone
  refine ⟨d, hd, fun n hn => ?_⟩
  have hkept := advanceN_idleWithResultsOf hidle hs hes hn
  exact ⟨(congrArg BitVec.toNat hkept.resInt).trans hint, (congrArg BitVec.toNat hkept.resNum).trans hnum,
    (congrArg BitVec.toNat hkept.resDen).trans hden⟩

end Sys2Proof.Machine

/-! ## Decoding and encoding (spec/30_encoding.md)

The byte form and its decoder are inverse to each other: `decodeBus_ok` and `decodeCmd_ok` say which strings decode.
The bus access of an operation decodes to it, so a step runs it; the last parts are the `STATUS` and `CAPS` words
and `CONFIG`. -/

namespace Sys2Proof

/-! ### Key bytes and lanes -/

/-- The byte of a key has the bits of the key, and 0 in bit 7. -/
@[simp] theorem keyByte_getLsbD (key : BitVec 7) (k : Nat) :
    (0#1 ++ key : Byte).getLsbD k = key.getLsbD k := by
  refine (BitVec.getLsbD_append (x := 0#1) (y := key) (i := k)).trans ?_
  by_cases hk : k < 7
  · simp [hk]
  · simp [hk, BitVec.getLsbD_of_ge key k (by omega)]

/-- The low seven bits of the byte of a key are the key. -/
@[simp] theorem keyByte_key (key : BitVec 7) : (0#1 ++ key : Byte).extractLsb' 0 7 = key := by
  apply BitVec.eq_of_getLsbD_eq
  intro k hk
  rw [BitVec.getLsbD_extractLsb', keyByte_getLsbD]
  simp [hk]

/-- A byte with bit 7 clear is the byte of a key (R71). -/
theorem keyByte_of_getLsbD_seven {b : Byte} (h : b.getLsbD 7 = false) : 0#1 ++ b.extractLsb' 0 7 = b := by
  apply BitVec.eq_of_getLsbD_eq
  intro k hk
  rw [keyByte_getLsbD, BitVec.getLsbD_extractLsb', Nat.zero_add]
  by_cases hlow : k < 7
  · rw [decide_eq_true hlow, Bool.true_and]
  · obtain rfl : k = 7 := by omega
    exact h.symm

/-- A key with `OFF[1:0] = 00` is the key of the register it selects (R72). -/
theorem busKey_ofSel {key : BitVec 7} (h : key.extractLsb' 0 2 = 0#2) :
    busKey (key.getLsbD 6) (Reg.ofSel (key.extractLsb' 2 4)) = key := by
  revert key; decide

/-- The lanes of four bytes put together are these bytes. -/
theorem bytesOfWord_wordOfBytes (b0 b1 b2 b3 : Byte) : bytesOfWord (wordOfBytes b0 b1 b2 b3) = [b0, b1, b2, b3] := by
  have hlane : ∀ k, k < 4 → lane (wordOfBytes b0 b1 b2 b3) k = [b0, b1, b2, b3].getD k 0#8 := by
    intro k hk
    apply BitVec.eq_of_getLsbD_eq
    intro j hj
    rw [lane, BitVec.getLsbD_extractLsb', wordOfBytes]
    simp only [BitVec.getLsbD_append, decide_eq_true hj, Bool.true_and]
    interval_cases k <;> simp (disch := omega) [hj, Nat.sub_sub, if_neg]
  simp [bytesOfWord, hlane]

/-- A word is its command code below its ignored bits (R73). -/
theorem commandWord_fields (w : Word) : commandWord (w.extractLsb' 0 4) (w.extractLsb' 4 28) = w := by
  apply BitVec.eq_of_getLsbD_eq
  intro k hk
  rw [commandWord_getLsbD, BitVec.getLsbD_extractLsb', BitVec.getLsbD_extractLsb']
  by_cases hlow : k < 4
  · simp [hlow]
  · simp [hlow, show k - 4 < 28 by omega, show 4 + (k - 4) = k by omega]

/-! ### Format and bytes of each kind of operation -/

@[simp] theorem format_readInstr (r : Reg) : (readInstr r).format = .bus := by simp [Instr.format]

@[simp] theorem format_writeInstr (r : Reg) (v : Word) : (writeInstr r v).format = .bus := by simp [Instr.format]

@[simp] theorem format_commandInstr (code : BitVec 4) (hi : BitVec 28) : (commandInstr code hi).format = .cmd := by
  simp [Instr.format]

@[simp] theorem encode_readInstr (r : Reg) : encode (readInstr r) = [0#1 ++ busKey false r] := by simp [encode]

@[simp] theorem encode_writeInstr (r : Reg) (v : Word) :
    encode (writeInstr r v) = (0#1 ++ busKey true r) :: bytesOfWord v := by simp [encode]

@[simp] theorem encode_commandInstr (code : BitVec 4) (hi : BitVec 28) :
    encode (commandInstr code hi) = bytesOfWord (commandWord code hi) := by simp [encode]

/-! ### Decoding what was encoded -/

/-- A read's key decodes to it and leaves the bytes after it. -/
theorem decodeBus_readKey (r : Reg) (rest : List Byte) :
    decodeBus ((0#1 ++ busKey false r) :: rest) = .ok (readInstr r, rest) := by
  unfold decodeBus
  simp only [keyByte_getLsbD, BitVec.getLsbD_of_ge _ 7 le_rfl, busKey_write, keyByte_key, decodeKey_read]
  rfl

/-- A write's key and the lanes of its data word decode to it. -/
theorem decodeBus_writeKey (r : Reg) (v : Word) (rest : List Byte) :
    decodeBus ((0#1 ++ busKey true r) :: (bytesOfWord v ++ rest)) = .ok (writeInstr r v, rest) := by
  unfold decodeBus bytesOfWord
  simp only [keyByte_getLsbD, BitVec.getLsbD_of_ge _ 7 le_rfl, busKey_write, keyByte_key, List.cons_append,
    wordOfBytes_lanes, decodeKey_write]
  rfl

/-- The lanes of a word decode to its command. -/
theorem decodeCmd_bytesOfWord (w : Word) (rest : List Byte) :
    decodeCmd (bytesOfWord w ++ rest) = .ok (decodeCommand w, rest) := by
  simp [decodeCmd, bytesOfWord]

/-- Settles O39, by the kind of the operation: a key, a key with a data word, or a `CTRL` data word. -/
theorem decodeOfEncode : Obligations.DecodeOfEncode := by
  intro i rest
  rcases i.op_cases with ⟨r, rfl⟩ | ⟨r, v, rfl⟩ | ⟨code, hi, rfl⟩
  · rw [format_readInstr, encode_readInstr]
    exact decodeBus_readKey r rest
  · rw [format_writeInstr, encode_writeInstr]
    exact decodeBus_writeKey r v rest
  · rw [format_commandInstr, encode_commandInstr, ← decodeCommand_commandWord]
    exact decodeCmd_bytesOfWord _ rest

/-! ### Encoding what was decoded -/

/-- A byte whose key decodes is the byte of a register's key, and the operation is that register's read or write. -/
theorem keyByte_of_decodeKey_ok {b : Byte} {v : Word} {i : Instr} (hseven : b.getLsbD 7 = false)
    (h : decodeKey (b.extractLsb' 0 7) v = .ok i) :
    ∃ r, b = 0#1 ++ busKey (b.getLsbD 6) r ∧ i = if b.getLsbD 6 then writeInstr r v else readInstr r := by
  have hsix : (b.extractLsb' 0 7).getLsbD 6 = b.getLsbD 6 := by simp
  obtain ⟨hlow, hop⟩ := decodeKey_ok h
  have hkey := busKey_ofSel hlow
  rw [hsix] at hop hkey
  refine ⟨_, by rw [hkey, keyByte_of_getLsbD_seven hseven], ?_⟩
  rcases hop with ⟨hw, rfl⟩ | ⟨hw, rfl⟩ <;> rw [hw] <;> rfl

/-- A decoded key answers with the bytes put beside it. -/
theorem decodeKey_map_ok {key : BitVec 7} {v : Word} {tail rest : List Byte} {i : Instr}
    (h : (decodeKey key v).map (fun j => (j, tail)) = .ok (i, rest)) : decodeKey key v = .ok i ∧ tail = rest := by
  cases hk : decodeKey key v with
  | ok j => simpa [hk, Except.map] using h
  | error e => simp [hk, Except.map] at h

/-- What decodes in format `BUS` is a read key, or a write key with the lanes of its data word. -/
theorem decodeBus_ok {bs rest : List Byte} {i : Instr} (h : decodeBus bs = .ok (i, rest)) :
    (∃ r, i = readInstr r ∧ bs = (0#1 ++ busKey false r) :: rest)
    ∨ ∃ r v, i = writeInstr r v ∧ bs = (0#1 ++ busKey true r) :: (bytesOfWord v ++ rest) := by
  unfold decodeBus at h
  split at h
  · cases h
  next b tail =>
    split at h
    · cases h
    next hseven =>
      have hseven := Bool.eq_false_of_not_eq_true hseven
      split at h
      next hw =>
        split at h
        next b0 b1 b2 b3 tail' =>
          obtain ⟨hdecode, rfl⟩ := decodeKey_map_ok h
          obtain ⟨r, hb, hi⟩ := keyByte_of_decodeKey_ok hseven hdecode
          rw [hw] at hb hi
          exact .inr ⟨r, _, hi, by rw [hb, bytesOfWord_wordOfBytes]; rfl⟩
        · cases h
      next hw =>
        obtain ⟨hdecode, rfl⟩ := decodeKey_map_ok h
        obtain ⟨r, hb, hi⟩ := keyByte_of_decodeKey_ok hseven hdecode
        rw [Bool.eq_false_of_not_eq_true hw] at hb hi
        exact .inl ⟨r, hi, by rw [hb]⟩

/-- What decodes in format `CMD` is the lanes of a word, and the operation is that word's command. -/
theorem decodeCmd_ok {bs rest : List Byte} {i : Instr} (h : decodeCmd bs = .ok (i, rest)) :
    ∃ w, i = decodeCommand w ∧ bs = bytesOfWord w ++ rest := by
  unfold decodeCmd at h
  split at h
  next b0 b1 b2 b3 tail =>
    cases h
    exact ⟨wordOfBytes b0 b1 b2 b3, rfl, by rw [bytesOfWord_wordOfBytes]; rfl⟩
  · cases h

/-- Settles O40, by the format: the strings that decode, with the operation of each. -/
theorem encodeOfDecode : Obligations.EncodeOfDecode := by
  intro f bs rest i h
  cases f with
  | bus =>
    rcases decodeBus_ok h with ⟨r, rfl, rfl⟩ | ⟨r, v, rfl, rfl⟩ <;> simp
  | cmd =>
    obtain ⟨w, rfl, rfl⟩ := decodeCmd_ok h
    rw [decodeCommand, format_commandInstr, encode_commandInstr, commandWord_fields]
    exact ⟨rfl, rfl⟩

/-- Settles O42: the decoder runs on these bytes. -/
theorem writtenWordsDecode : Obligations.WrittenWordsDecode := by
  refine ⟨?_, ?_, ?_, ?_, ?_, ?_⟩ <;> decide

/-! ### The bus access of an operation -/

/-- A read's access decodes to it. -/
theorem decodeAccess_encodeAccess_read (p : Params) (r : Reg) :
    decodeAccess p (encodeAccess p (readInstr r)) = .ok (readInstr r) := by
  rw [encodeAccess, readInstr_op]
  exact decodeAccess_read p r

/-- A write's access decodes to it. -/
theorem decodeAccess_encodeAccess_write (p : Params) (r : Reg) (v : Word) :
    decodeAccess p (encodeAccess p (writeInstr r v)) = .ok (writeInstr r v) := by
  rw [encodeAccess, writeInstr_op]
  exact decodeAccess_write p r v

/-- A command's access decodes to the write to `CTRL` with its word. -/
theorem decodeAccess_encodeAccess_command (p : Params) (code : BitVec 4) (hi : BitVec 28) :
    decodeAccess p (encodeAccess p (commandInstr code hi)) = .ok (.wrCtrl (commandWord code hi)) := by
  rw [encodeAccess, commandInstr_op]
  exact decodeAccess_write p .ctrl _

/-- Settles O41, by the kind of the operation. -/
theorem accessDecodesToItsOperation : Obligations.AccessDecodesToItsOperation := by
  intro p i
  rcases i.op_cases with ⟨r, rfl⟩ | ⟨r, v, rfl⟩ | ⟨code, hi, rfl⟩
  · rw [decodeAccess_encodeAccess_read]
    simp
  · rw [decodeAccess_encodeAccess_write]
    simp
  · rw [decodeAccess_encodeAccess_command, commandInstr_op]
    refine ⟨rfl, by simp, by simp, ?_⟩
    rintro _ _ ⟨⟩
    exact decodeCommand_commandWord code hi

end Sys2Proof

namespace Sys2Proof.Machine

/-! ### What a step runs -/

/-- A `CTRL` write performs the command its data word decodes to (R70). -/
theorem exec_wrCtrl (v : Word) (s : State) : exec (.wrCtrl v) s = exec (decodeCommand v) s := by
  rw [decodeCommand, exec_commandInstr]
  rfl

/-- Settles O18: of the word only the command code matters. -/
theorem ctrlWriteIsItsDecodedCommand : Obligations.CtrlWriteIsItsDecodedCommand := by
  refine ⟨exec_wrCtrl, fun v w s hcode => ?_⟩
  simp only [exec_wrCtrl, decodeCommand, exec_commandInstr, hcode]

/-- Settles O22: a read's and a write's access decode to them, a command's to the `CTRL` write that performs it. -/
theorem stepRunsDecodedAccess : Obligations.StepRunsDecodedAccess := by
  refine ⟨fun s a rest i hs hd => step_bus hs hd, fun s i rest hs => ?_⟩
  rcases i.op_cases with ⟨r, rfl⟩ | ⟨r, v, rfl⟩ | ⟨code, hi, rfl⟩
  · exact step_bus hs (decodeAccess_encodeAccess_read _ r)
  · exact step_bus hs (decodeAccess_encodeAccess_write _ r v)
  · rw [step_bus hs (decodeAccess_encodeAccess_command _ code hi), exec_wrCtrl, decodeCommand_commandWord]
    rfl

/-! ### The `STATUS` and `CAPS` words (R76, R77) -/

/-- A number that fits a byte has no bit from 8 up. -/
theorem testBit_above_byte {n k : Nat} (hn : n < 256) (hk : 8 ≤ k) : n.testBit k = false :=
  Nat.testBit_lt_two_pow (lt_of_lt_of_le (b := 2 ^ 8) hn (Nat.pow_le_pow_right (by decide) hk))

/-- A flag as a word is that flag in bit 0. -/
theorem getLsbD_ofNat_bit (b : Bool) (k : Nat) : (BitVec.ofNat 32 (bit b)).getLsbD k = (b && decide (k = 0)) := by
  cases b <;> simp [bit, BitVec.getLsbD_one]

/-- Each bit of the `STATUS` word: the field that covers it, or 0. -/
theorem Status.word_getLsbD (st : Status) {k : Nat} (hk : k < 32) :
    st.word.getLsbD k =
      (st.busy && decide (k = 0) || st.done && decide (k = 1) || st.err && decide (k = 2)
        || decide (4 ≤ k) && st.errCode.getLsbD (k - 4) || decide (8 ≤ k) && st.path.getLsbD (k - 8)
        || st.neg && decide (k = 10) || st.intRange && decide (k = 11)) := by
  simp only [Status.word, BitVec.getLsbD_or, BitVec.getLsbD_shiftLeft, getLsbD_ofNat_bit, BitVec.getLsbD_setWidth]
  interval_cases k <;> simp

/-- The fields of `STATUS` wider than one bit, and the zeros above them. -/
theorem Status.word_fields (st : Status) :
    st.word.extractLsb' 4 3 = st.errCode ∧ st.word.extractLsb' 8 2 = st.path
      ∧ st.word.extractLsb' 12 20 = 0#20 := by
  refine ⟨?_, ?_, ?_⟩ <;> apply BitVec.eq_of_getLsbD_eq <;> intro k hk <;>
    rw [BitVec.getLsbD_extractLsb', st.word_getLsbD (by omega)]
  · interval_cases k <;> simp
  · interval_cases k <;> simp
  · rw [BitVec.getLsbD_of_ge st.errCode _ (by omega), BitVec.getLsbD_of_ge st.path _ (by omega)]
    simp [show 12 + k ≠ 0 ∧ 12 + k ≠ 1 ∧ 12 + k ≠ 2 ∧ 12 + k ≠ 10 ∧ 12 + k ≠ 11 by omega]

/-- `P_DEN_BITS_MAX` stands below bit 8, `CARRY_RULE` in bit 8 (R77). -/
theorem capsWord_getLsbD {p : Params} (hp : p.wf = true) {k : Nat} (hk : k < 32) :
    (capsWord p).getLsbD k =
      (decide (k < 8) && p.denBitsMax.testBit k || decide (k = 8) && decide (p.carryRule = .observed)) := by
  have hmax : p.denBitsMax < 256 := (denBitsMax_le_of_wf hp).trans_lt (by decide)
  have hrule : carryRuleBit p.carryRule = bit (decide (p.carryRule = .observed)) := by cases p.carryRule <;> rfl
  rw [capsWord, BitVec.getLsbD_or, BitVec.getLsbD_ofNat, BitVec.getLsbD_shiftLeft, hrule, getLsbD_ofNat_bit]
  by_cases hlow : k < 8
  · simp [hk, hlow, show k ≠ 8 by omega]
  · simp [hk, hlow, testBit_above_byte hmax (Nat.le_of_not_lt hlow), show k - 8 = 0 ↔ k = 8 by omega, Bool.and_comm]

/-- `P_DEN_BITS_MAX` in bits [7:0] of `CAPS`, and the zeros above `CARRY_RULE`. -/
theorem capsWord_fields {p : Params} (hp : p.wf = true) :
    (capsWord p).extractLsb' 0 8 = BitVec.ofNat 8 p.denBitsMax ∧ (capsWord p).extractLsb' 9 23 = 0#23 := by
  refine ⟨?_, ?_⟩ <;> apply BitVec.eq_of_getLsbD_eq <;> intro k hk <;>
    rw [BitVec.getLsbD_extractLsb', capsWord_getLsbD hp (by omega)]
  · rw [BitVec.getLsbD_ofNat]
    simp [hk, show k ≠ 8 by omega]
  · simp [show ¬ 9 + k < 8 by omega, show 9 + k ≠ 8 by omega]

/-- Settles O43, field by field from the bits of the two words. -/
theorem statusAndCapsWordsByBit : Obligations.StatusAndCapsWordsByBit := by
  refine ⟨fun st => ?_, fun p hp => ?_⟩
  · obtain ⟨herr, hpath, hhigh⟩ := st.word_fields
    refine ⟨?_, ?_, ?_, ?_, herr, ?_, hpath, ?_, ?_, hhigh⟩ <;> rw [st.word_getLsbD (by decide)] <;> simp
  · obtain ⟨hmax, hhigh⟩ := capsWord_fields hp
    have hrule : (capsWord p).getLsbD 8 = decide (p.carryRule = .observed) := by
      rw [capsWord_getLsbD hp (by decide)]
      simp
    exact ⟨(congrArg BitVec.toNat hmax).trans (Block.reset_denBits_toNat hp Snapshot.zero), hrule, hhigh⟩

/-! ### `CONFIG` (R82) -/

/-- A command neither reads nor writes the schedule. -/
theorem whileIdle_withSchedule (c : Command) (s : State) (es : List Event) :
    whileIdle c (s.withSchedule es) = (whileIdle c s).withSchedule es := by
  cases hb : s.block.status.busy with
  | true => rw [whileIdle_busy hb, whileIdle_busy (by exact hb)]
  | false =>
    rw [whileIdle_idle hb, whileIdle_idle (by exact hb)]
    cases c <;> rfl

/-- A write neither reads nor writes the schedule. -/
theorem busWrite_withSchedule (r : Reg) (v : Word) (s : State) (es : List Event) :
    busWrite r v (s.withSchedule es) = (busWrite r v s).withSchedule es := by
  cases r with
  | ctrl => exact whileIdle_withSchedule _ s es
  | _ => rfl

/-- A master's write of a word to a register. -/
def writeEvent (p : Params) (w : Reg × Word) : Event := .bus ⟨p.baseAddr + w.1.offset, 4, .write w.2⟩

/-- A write at the head of the schedule. -/
theorem advance_writeEvent {s : State} {w : Reg × Word} {rest : List Event}
    (h : s.schedule = writeEvent s.params w :: rest) : advance s = busWrite w.1 w.2 (s.withSchedule rest) :=
  advance_next ((step_bus h (decodeAccess_write s.params w.1 w.2)).trans (exec_writeInstr w.1 w.2 _))

/-- A series of writes at the head of the schedule is their effects in order. -/
theorem advanceN_writeEvents (ws : List (Reg × Word)) {s : State} {rest : List Event}
    (h : s.schedule = ws.map (writeEvent s.params) ++ rest) :
    advanceN ws.length s = ws.foldl (fun u w => busWrite w.1 w.2 u) (s.withSchedule rest) := by
  induction ws generalizing s with
  | nil =>
    rw [← show s.schedule = rest from h]
    rfl
  | cons w ws ih =>
    have hone : advance s = busWrite w.1 w.2 (s.withSchedule (ws.map (writeEvent s.params) ++ rest)) :=
      advance_writeEvent h
    obtain ⟨hparams, hsched, -⟩ := busWrite_frame w.1 w.2 (s.withSchedule (ws.map (writeEvent s.params) ++ rest))
    rw [List.length_cons, advanceN_succ, hone, ih (by rw [hsched, hparams]; rfl), ← busWrite_withSchedule]
    rfl

/-- The fields of the word `CONFIG` writes to `CONSTRAINTS`; `db` stands above an 8-bit `ib`. -/
theorem configWord_fields {ib : Nat} (db : Nat) (hib : ib < 256) :
    intBitsField (BitVec.ofNat 32 (configWord ib db)) = BitVec.ofNat 8 ib
      ∧ denBitsField (BitVec.ofNat 32 (configWord ib db)) = BitVec.ofNat 8 db := by
  refine ⟨?_, ?_⟩ <;> apply BitVec.eq_of_getLsbD_eq <;> intro k hk
  · simp only [intBitsField, configWord, BitVec.getLsbD_extractLsb', BitVec.getLsbD_ofNat, Nat.testBit_or,
      Nat.testBit_shiftLeft]
    simp [hk, show k < 32 by omega, show ¬ 8 ≤ k by omega]
  · have hhigh : ib.testBit (8 + k) = false := testBit_above_byte hib (Nat.le_add_right 8 k)
    simp only [denBitsField, configWord, BitVec.getLsbD_extractLsb', BitVec.getLsbD_ofNat, Nat.testBit_or,
      Nat.testBit_shiftLeft, hhigh]
    simp [hk, show 8 + k < 32 by omega]

/-- The writes of `CONFIG s, t, b, ib, db`, in order. -/
def configWrites (s t b ib db : Nat) : List (Reg × Word) :=
  [(.srcFreq, BitVec.ofNat 32 s), (.tgtFreq, BitVec.ofNat 32 t), (.baseDiv, BitVec.ofNat 32 b),
    (.constraints, BitVec.ofNat 32 (configWord ib db))]

theorem programEvents_config (p : Params) (s t b ib db : Nat) :
    programEvents p [.config s t b ib db] = (configWrites s t b ib db).map (writeEvent p) := rfl

/-- Settles O44: the line is four writes, the last one of the two fields of `CONSTRAINTS`. -/
theorem configSetsTheFourInputs : Obligations.ConfigSetsTheFourInputs := by
  intro s f t b ib db rest _ hib _ hs
  rw [programEvents_config] at hs
  obtain ⟨hint, hden⟩ := configWord_fields db hib
  rw [← hint, ← hden]
  exact advanceN_writeEvents (configWrites f t b ib db) hs

end Sys2Proof.Machine

/-! ## Register access (spec/40_register_access.md)

Each key of a clause below is `busKey` of its register, so its operation and that operation's effect come from the
laws of the decoder and of `exec` by register. What is left is the value a register reads as and the command a
write to `CTRL` performs. -/

namespace Sys2Proof.Machine

/-! ### The value of `STATUS` and `CAPS` -/

/-- The relations of 10_state.md R42 leave one busy `STATUS`. -/
theorem Status.Coherent.eq_solving {st : Status} (h : st.Coherent) (hb : st.busy = true) : st = Status.solving := by
  obtain ⟨hbusy, -⟩ := h
  obtain ⟨hdone, herr, hcode, hpath, hneg, hrange⟩ := hbusy hb
  obtain ⟨busy, done, err, errCode, path, neg, intRange⟩ := st
  subst hb hdone herr hcode hpath hneg hrange
  rfl

theorem Status.solving_word : Status.solving.word = 0x1#32 := by decide

/-- The `CAPS` word with `CARRY_RULE` written out at bit 8 (R118). -/
theorem capsWord_eq (p : Params) :
    capsWord p = BitVec.ofNat 32 p.denBitsMax ||| (if p.carryRule = .observed then 0x100#32 else 0#32) := by
  unfold capsWord
  cases p.carryRule <;> rfl

/-- A read of `CAPS` returns the parameters. -/
theorem exec_rdCaps (s : State) :
    exec .rdCaps s = .next { s with
      readData := some (BitVec.ofNat 32 s.params.denBitsMax
        ||| (if s.params.carryRule = .observed then 0x100#32 else 0#32)) } := by
  rw [← capsWord_eq]
  exact exec_readInstr .caps s

/-! ### Reads -/

/-- Settles O4, register by register. -/
theorem inputRegisterReadsReturnRegister : Obligations.InputRegisterReadsReturnRegister :=
  ⟨fun v => ⟨decodeKey_read .srcFreq v, decodeKey_read .tgtFreq v, decodeKey_read .baseDiv v,
      decodeKey_read .constraints v⟩,
    fun s => ⟨exec_readInstr .srcFreq s, exec_readInstr .tgtFreq s, exec_readInstr .baseDiv s,
      exec_readInstr .constraints s⟩⟩

/-- Settles O5, register by register; a coherent busy `STATUS` is the one an accepted `SOLVE` sets. -/
theorem controlStatusResultReads : Obligations.ControlStatusResultReads :=
  ⟨fun v => ⟨decodeKey_read .ctrl v, decodeKey_read .status v, decodeKey_read .resInt v, decodeKey_read .resNum v,
      decodeKey_read .resDen v, decodeKey_read .caps v⟩,
    fun s => ⟨exec_readInstr .ctrl s, exec_readInstr .status s, exec_readInstr .resInt s, exec_readInstr .resNum s,
      exec_readInstr .resDen s, exec_rdCaps s, fun hcoherent hbusy =>
        (congrArg Status.word (hcoherent.eq_solving hbusy)).trans Status.solving_word⟩⟩

/-- Settles O6, register by register. -/
theorem reservedOffsetsReadZero : Obligations.ReservedOffsetsReadZero :=
  ⟨fun v => ⟨decodeKey_read .rsvd28 v, decodeKey_read .rsvd2C v, decodeKey_read .rsvd30 v, decodeKey_read .rsvd34 v,
      decodeKey_read .rsvd38 v, decodeKey_read .rsvd3C v⟩,
    fun s => ⟨exec_readInstr .rsvd28 s, exec_readInstr .rsvd2C s, exec_readInstr .rsvd30 s, exec_readInstr .rsvd34 s,
      exec_readInstr .rsvd38 s, exec_readInstr .rsvd3C s⟩⟩

/-! ### Data writes -/

/-- Settles O7, register by register. -/
theorem inputRegisterWritesStoreWord : Obligations.InputRegisterWritesStoreWord := fun v s =>
  ⟨⟨decodeKey_write .srcFreq v, decodeKey_write .tgtFreq v, decodeKey_write .baseDiv v,
      decodeKey_write .constraints v⟩,
    exec_writeInstr .srcFreq v s, exec_writeInstr .tgtFreq v s, exec_writeInstr .baseDiv v s,
    exec_writeInstr .constraints v s⟩

/-- A write to a register that is no input and not `CTRL` has no effect. -/
theorem exec_writeInstr_of_not_input (r : Reg) (hin : r.isInput = false) (hr : r ≠ .ctrl) (v : Word) (s : State) :
    exec (writeInstr r v) s = .next s := by
  rw [exec_writeInstr, busWrite_of_not_input hin hr]

/-- Settles O8: none of the eleven registers is an input or `CTRL`. -/
theorem readOnlyAndReservedWritesIgnored : Obligations.ReadOnlyAndReservedWritesIgnored := fun v s =>
  ⟨⟨decodeKey_write .status v, decodeKey_write .resInt v, decodeKey_write .resNum v, decodeKey_write .resDen v,
      decodeKey_write .caps v, decodeKey_write .rsvd28 v, decodeKey_write .rsvd2C v, decodeKey_write .rsvd30 v,
      decodeKey_write .rsvd34 v, decodeKey_write .rsvd38 v, decodeKey_write .rsvd3C v⟩,
    exec_writeInstr_of_not_input .status rfl nofun v s,
    exec_writeInstr_of_not_input .resInt rfl nofun v s,
    exec_writeInstr_of_not_input .resNum rfl nofun v s,
    exec_writeInstr_of_not_input .resDen rfl nofun v s,
    exec_writeInstr_of_not_input .caps rfl nofun v s,
    exec_writeInstr_of_not_input .rsvd28 rfl nofun v s,
    exec_writeInstr_of_not_input .rsvd2C rfl nofun v s,
    exec_writeInstr_of_not_input .rsvd30 rfl nofun v s,
    exec_writeInstr_of_not_input .rsvd34 rfl nofun v s,
    exec_writeInstr_of_not_input .rsvd38 rfl nofun v s,
    exec_writeInstr_of_not_input .rsvd3C rfl nofun v s⟩

/-! ### Writes to `CTRL` (R109) -/

/-- The codes 3 to 15 are reserved (30_encoding.md R74). -/
theorem Command.ofCode_eq_reserved {code : BitVec 4} (h : 3 ≤ code.toNat) : Command.ofCode code = .reserved := by
  revert code; decide

theorem exec_wrCtrl_busy {s : State} (h : s.block.status.busy = true) (v : Word) : exec (.wrCtrl v) s = .next s := by
  rw [exec_wrCtrl, decodeCommand, exec_commandInstr, whileIdle_busy h]

theorem exec_wrCtrl_idle {s : State} (h : s.block.status.busy = false) (v : Word) :
    exec (.wrCtrl v) s = .next (performCommand (Command.ofCode (v.extractLsb' 0 4)) s) := by
  rw [exec_wrCtrl, decodeCommand, exec_commandInstr, whileIdle_idle h]

/-- Settles O17: busy, or idle with the command of each code. -/
theorem ctrlWritePerformsItsCommand : Obligations.CtrlWritePerformsItsCommand := by
  intro v s
  refine ⟨decodeKey_write .ctrl v, fun hbusy => exec_wrCtrl_busy hbusy v, fun hidle => ?_⟩
  rw [exec_wrCtrl_idle hidle]
  refine ⟨fun hnop => ?_, fun hsolve => ?_, fun hclear => ?_, fun hreserved => ?_⟩
  · rw [hnop]; rfl
  · rw [hsolve]; rfl
  · rw [hclear]; rfl
  · rw [Command.ofCode_eq_reserved hreserved]; rfl

/-! ### The life of `CAPS` (R118) -/

/-- No step of the total order changes the parameters: a fault and a refusal leave them too. -/
theorem advance_params (s : State) : (advance s).params = s.params := by
  cases ho : step s with
  | next t => rw [advance_next ho, step_params ho]
  | fault f => rw [advance_fault ho]; rfl
  | refused q => rw [advance_refused ho]; rfl

theorem advanceN_params (n : Nat) (s : State) : (advanceN n s).params = s.params :=
  advanceN_induction (P := fun t => t.params = s.params) (fun t h => (advance_params t).trans h) n s rfl

/-- Settles O27: `CAPS` reads as the parameters, which no step changes. -/
theorem capsConstantForLife : Obligations.CapsConstantForLife := by
  intro n s
  have hparams := advanceN_params n s
  refine ⟨fun v => decodeKey_read .caps v, hparams, ?_⟩
  rw [← hparams]
  exact exec_rdCaps (advanceN n s)

end Sys2Proof.Machine

/-! ## Commands and the engine (spec/41_commands.md)

A command's word is `commandWord` of its code, so it decodes by `decodeCommand_commandWord`, and its meaning is
`performCommand` of that code, dropped while busy. The engine's turn has one equation, `step_engineNext`; that a
running solve ends follows from it by induction on the schedule. -/

namespace Sys2Proof.Machine

/-! ### The meaning of a command, busy and idle -/

theorem exec_commandInstr_busy {s : State} (h : s.block.status.busy = true) (code : BitVec 4) (hi : BitVec 28) :
    exec (commandInstr code hi) s = .next s := by
  rw [exec_commandInstr, whileIdle_busy h]

theorem exec_commandInstr_idle {s : State} (h : s.block.status.busy = false) (code : BitVec 4) (hi : BitVec 28) :
    exec (commandInstr code hi) s = .next (performCommand (Command.ofCode code) s) := by
  rw [exec_commandInstr, whileIdle_idle h]

/-- `NOP` changes nothing, so it need not be dropped while busy. -/
theorem whileIdle_nop (s : State) : whileIdle .nop s = s := ite_self s

/-- An idle block answers every code from 3 up with the report of a bad command. -/
theorem exec_commandInstr_reserved {s : State} (h : s.block.status.busy = false) {code : BitVec 4}
    (hcode : 3 ≤ code.toNat) (hi : BitVec 28) : exec (commandInstr code hi) s = .next (rejectCommand s) := by
  rw [exec_commandInstr_idle h, Command.ofCode_eq_reserved hcode]
  rfl

/-- The reserved codes of 30_encoding.md R74. -/
def reservedCodes : List (BitVec 4) := [3#4, 4#4, 5#4, 6#4, 7#4, 8#4, 9#4, 10#4, 11#4, 12#4, 13#4, 14#4, 15#4]

theorem three_le_of_mem_reservedCodes : ∀ code ∈ reservedCodes, 3 ≤ code.toNat := by decide

theorem Status.clear_word : Status.clear.word = 0#32 := by decide

/-- Settles O12: the code 0 is `NOP`, which changes nothing busy or idle. -/
theorem nopHasNoEffect : Obligations.NopHasNoEffect := by
  intro hi s
  exact ⟨decodeCommand_commandWord 0#4 hi,
    (exec_commandInstr 0#4 hi s).trans (congrArg _ (whileIdle_nop s))⟩

/-- Settles O13: the code 1 is `SOLVE`, and an idle block starts a solve. -/
theorem solveTakesSnapshotAndSetsBusy : Obligations.SolveTakesSnapshotAndSetsBusy := by
  intro hi s hidle
  have hexec : exec (.solve hi) s = .next (startSolve s) := exec_commandInstr_idle hidle 1#4 hi
  refine ⟨decodeCommand_commandWord 1#4 hi, hexec, fun t ht => ?_⟩
  obtain rfl : startSolve s = t := Host.Outcome.next.inj (hexec.symm.trans ht)
  exact Status.solving_word

/-- Settles O14: the code 2 is `CLEAR`, and an idle block clears `STATUS`. -/
theorem clearZeroesStatus : Obligations.ClearZeroesStatus := by
  intro hi s hidle
  have hexec : exec (.clear hi) s = .next (clearStatus s) := exec_commandInstr_idle hidle 2#4 hi
  refine ⟨decodeCommand_commandWord 2#4 hi, hexec, fun t ht => ?_⟩
  obtain rfl : clearStatus s = t := Host.Outcome.next.inj (hexec.symm.trans ht)
  exact Status.clear_word

/-- Settles O15: the thirteen operations are the commands of the reserved codes. -/
theorem reservedCommandsReportBadCommand : Obligations.ReservedCommandsReportBadCommand := by
  intro hi s hidle
  refine ⟨fun code hcode => ?_, ?_⟩
  · rw [← commandWord, decodeCommand_commandWord]
    exact exec_commandInstr_reserved hidle hcode hi
  · change ∀ i ∈ reservedCodes.map (commandInstr · hi), exec i s = .next (rejectCommand s)
    rw [List.forall_mem_map]
    exact fun code hmem => exec_commandInstr_reserved hidle (three_le_of_mem_reservedCodes code hmem) hi

/-- Settles O16: a busy block drops the write and every command. -/
theorem ctrlWritesDroppedWhileBusy : Obligations.CtrlWritesDroppedWhileBusy :=
  fun _ hbusy => ⟨exec_wrCtrl_busy hbusy, exec_commandInstr_busy hbusy⟩

/-! ### The engine's turn -/

/-- When the engine is next the step is its turn, with its entry, if it has one, taken off the schedule. -/
theorem step_engineNext {s : State} (hn : s.EngineNext) :
    step s = .next (engineTurn (s.withSchedule s.schedule.tail)) := by
  obtain hs | ⟨rest, hs⟩ := hn
  · rw [step_nil hs, hs, List.tail_nil, ← hs, State.withSchedule_self]
  · rw [step_engine hs, hs, List.tail_cons]

/-- When the engine is next and a solve runs, the step is the completion. -/
theorem step_complete {s : State} (hn : s.EngineNext) (hbusy : s.block.status.busy = true) :
    step s = .next ((complete s).withSchedule s.schedule.tail) := by
  rw [step_engineNext hn, engineTurn_busy (by exact hbusy), complete_withSchedule]

theorem complete_ok {s : State} {d : Divider} (h : solve s.params s.block.snap.inputs = .ok d) :
    complete s = completeOk d s := by
  rw [complete, h]

theorem complete_error {s : State} {e : SolveError} (h : solve s.params s.block.snap.inputs = .error e) :
    complete s = completeError e s := by
  rw [complete, h]

/-- Every completion reports: a result by `DONE`, an error by `ERR`. -/
theorem complete_done_or_err (s : State) :
    (complete s).block.status.done = true ∨ (complete s).block.status.err = true := by
  rcases complete_cases s with ⟨d, -, h⟩ | ⟨e, -, h⟩ <;> rw [h]
  · exact .inl rfl
  · exact .inr rfl

/-- Settles O19: the step is `complete_ok` of the result. -/
theorem completionWritesResult : Obligations.CompletionWritesResult := by
  intro s d hn hbusy hsolve
  rw [step_complete hn hbusy, complete_ok hsolve]
  rfl

/-- Settles O20: the step is `complete_error` of the error. -/
theorem completionReportsError : Obligations.CompletionReportsError := by
  intro s e hn hbusy hsolve
  rw [step_complete hn hbusy, complete_error hsolve]
  rfl

/-- Settles O21: a busy block completes, an idle one loses the entry of the schedule only. -/
theorem engineStepsExactlyWhenBusy : Obligations.EngineStepsExactlyWhenBusy := by
  intro s hn
  refine ⟨_, step_engineNext hn, ?_⟩
  cases hb : s.block.status.busy with
  | false =>
    rw [engineTurn_idle (by exact hb)]
    exact ⟨hb, fun _ => rfl, nofun⟩
  | true =>
    rw [engineTurn_busy (by exact hb)]
    exact ⟨complete_busy _, nofun, fun _ => complete_done_or_err _⟩

/-- With nothing scheduled the next step ends a running solve. -/
theorem advance_nil_idle {s : State} (hs : s.schedule = []) (hbusy : s.block.status.busy = true) :
    (advance s).block.status.busy = false := by
  rw [advance_nil hs, engineTurn_busy hbusy, complete_busy]

/-- Settles O34, by induction on the schedule: each step takes its entry, and the engine moves when none is left. -/
theorem runningSolveEnds : Obligations.RunningSolveEnds := by
  intro s hbusy
  induction hs : s.schedule generalizing s with
  | nil => exact ⟨1, le_rfl, advance_nil_idle hs hbusy⟩
  | cons e rest ih =>
    cases hb : (advance s).block.status.busy with
    | false => exact ⟨1, Nat.le_add_left _ _, hb⟩
    | true =>
      obtain ⟨n, hn, hidle⟩ := ih (advance s) hb (by rw [advance_schedule, hs, List.tail_cons])
      exact ⟨n + 1, Nat.succ_le_succ hn, hidle⟩

end Sys2Proof.Machine

/-! ## The solve (spec/42_solver.md)

A result is the `divider` of its path, which `solve_okBy` says once. A search ends at the denominator that
`EarliestNearest` describes, on either path: an exact match is a candidate of distance 0. The candidate at a
denominator is the nearest fraction with it (`crossDist_roundNum_le`), so the pair a search returns is nearest among
all fractions, and each property of it follows from one well-chosen competitor. -/

namespace Sys2Proof.Machine

/-! ### The answer of a valid solve, by path -/

/-- The result with these numbers and this path, and the flags of R155 and R174. -/
def Inputs.divider (x : Inputs) (int num den : Nat) (path : Path) : Divider :=
  { int := int, num := num, den := den, path := path
    neg := negFlag x.srcFreq x.tgtFreq x.baseDiv
    intRange := intRangeFlag int x.intBits }

theorem finish_eq (x : Inputs) (int num den : Nat) (path : Path) :
    finish x int num den path = .ok (x.divider int num den path) := rfl

section
variable (x : Inputs) (int num den : Nat) (path : Path)

@[simp] theorem Inputs.divider_int : (x.divider int num den path).int = int := rfl
@[simp] theorem Inputs.divider_num : (x.divider int num den path).num = num := rfl
@[simp] theorem Inputs.divider_den : (x.divider int num den path).den = den := rfl
@[simp] theorem Inputs.divider_path : (x.divider int num den path).path = path := rfl

end

section
variable {p : Params} {x : Inputs}

theorem Inputs.Valid.solve_eq (hx : x.Valid p) : solve p x = divide p x := by
  obtain ⟨ht, hs, hc⟩ := hx
  simp [solve, ht, hs, hc]

theorem Inputs.Valid.solve_exact (hx : x.Valid p) (hf : freqDiff x = 0) :
    solve p x = .ok (x.divider x.baseDiv 0 1 .exact) := by
  rw [hx.solve_eq, divide, if_pos hf, finish_eq]

theorem Inputs.Valid.solve_carry (hx : x.Valid p) (hf : freqDiff x ≠ 0)
    (hk : carries p.carryRule (freqDiff x) x.tgtFreq (dMax x.denBits) = true) : solve p x = carryResult x := by
  rw [hx.solve_eq, divide, if_neg hf, if_pos hk]

/-- The carry of R158: one more than the base, or an error at the top of `u32`. -/
theorem Inputs.Valid.solve_carry_by_one (hx : x.Valid p) (hf : freqDiff x ≠ 0)
    (hk : carries p.carryRule (freqDiff x) x.tgtFreq (dMax x.denBits) = true) :
    (x.baseDiv = 2 ^ 32 - 1 → solve p x = .error .carryOverflow)
    ∧ (x.baseDiv ≠ 2 ^ 32 - 1 →
        ∃ d, solve p x = .ok d ∧ d.int = x.baseDiv + 1 ∧ d.num = 0 ∧ d.den = 1 ∧ d.path = .carry) := by
  rw [hx.solve_carry hf hk, carryResult]
  refine ⟨fun hb => if_pos hb, fun hb => ?_⟩
  rw [if_neg hb, finish_eq]
  exact ⟨_, rfl, rfl, rfl, rfl, rfl⟩

theorem Inputs.ReachesSearch.solve_eq (hx : x.ReachesSearch p) : solve p x = searchResult x := by
  rw [hx.valid.solve_eq, divide, if_neg hx.notExact, if_neg (by simp [hx.noCarry])]

theorem Inputs.ReachesSearch.freqDiff_pos (hx : x.ReachesSearch p) : 0 < freqDiff x :=
  Nat.pos_of_ne_zero hx.notExact

theorem Inputs.ReachesSearch.freqDiff_lt (hx : x.ReachesSearch p) : freqDiff x < x.tgtFreq :=
  freqDiff_lt_of_noCarry hx.noCarry (dMax_pos hx.valid.constraints) hx.valid.target

theorem Inputs.ReachesSearch.three_le_dMax (hx : x.ReachesSearch p) : 3 ≤ dMax x.denBits :=
  (two_le_denBits hx.valid.constraints hx.notExact hx.noCarry).2

end

/-! ### The nearest fraction with a denominator (R160, R161) -/

section
variable {fd t : Nat}

/-- Rounding is off by at most half a unit. -/
theorem crossDist_roundNum_le_half (ht : 0 < t) (a : Nat) : 2 * crossDist fd t a (roundNum fd t a) ≤ t := by
  have hdiv := Nat.div_add_mod (2 * a * fd + t) (2 * t)
  have hmod := Nat.mod_lt (2 * a * fd + t) (show 0 < 2 * t by omega)
  change 2 * t * roundNum fd t a + _ = _ at hdiv
  have hrhs : 2 * t * roundNum fd t a = 2 * (t * roundNum fd t a) := by ring
  have hlhs : 2 * a * fd = 2 * (fd * a) := by ring
  unfold crossDist
  omega

/-- No numerator is nearer than the rounded one. -/
theorem crossDist_roundNum_le (ht : 0 < t) (a b : Nat) :
    crossDist fd t a (roundNum fd t a) ≤ crossDist fd t a b := by
  have hhalf := crossDist_roundNum_le_half (fd := fd) ht a
  rcases lt_trichotomy b (roundNum fd t a) with hlt | heq | hgt
  · have hunit : t * b + t ≤ t * roundNum fd t a := Nat.mul_le_mul_left t hlt
    unfold crossDist at *
    omega
  · rw [heq]
  · have hunit : t * roundNum fd t a + t ≤ t * b := Nat.mul_le_mul_left t hgt
    unfold crossDist at *
    omega

theorem crossDist_eq_zero_iff {a b : Nat} : crossDist fd t a b = 0 ↔ fd * a = t * b := by
  unfold crossDist
  omega

/-- An exact match is a candidate of distance 0 (R162). -/
theorem exactAt_iff {a : Nat} : ExactAt fd t a ↔ (candidate fd t a).dist = 0 := crossDist_eq_zero_iff.symm

/-- There is an exact match at `a` just when `T` divides `FD * a`. -/
theorem exactAt_iff_dvd (ht : 0 < t) {a : Nat} : ExactAt fd t a ↔ t ∣ fd * a := by
  refine ⟨Dvd.intro _ ∘ Eq.symm, fun ⟨b, hb⟩ => ?_⟩
  rw [exactAt_iff, ← Nat.le_zero, ← crossDist_eq_zero_iff.2 hb]
  exact crossDist_roundNum_le ht a b

/-- There is an exact match at `a` just when `a` is a multiple of the reduced denominator (R175). -/
theorem exactAt_iff_div_gcd_dvd (ht : 0 < t) {a : Nat} : ExactAt fd t a ↔ t / Nat.gcd fd t ∣ a := by
  rw [exactAt_iff_dvd ht, Nat.div_dvd_iff_dvd_mul (Nat.gcd_dvd_right fd t) (Nat.gcd_pos_of_pos_right fd ht),
    Nat.gcd_comm, Nat.dvd_gcd_mul_iff_dvd_mul]

/-- A fraction that is not in lowest terms has a competitor, nearer by the common factor. -/
theorem crossDist_mul (g a b : Nat) : crossDist fd t (g * a) (g * b) = g * crossDist fd t a b := by
  have hfactor : (t : Int) * (g * b : Nat) - fd * (g * a : Nat) = g * (t * b - fd * a) := by
    push_cast
    ring
  rw [crossDist, hfactor, Int.natAbs_mul, Int.natAbs_natCast, crossDist]

/-- The numerator of an exact match lies strictly between 0 and the denominator. -/
theorem ExactAt.num_bounds {a : Nat} (h : ExactAt fd t a) (hpos : 0 < fd) (hlt : fd < t) (ha : 0 < a) :
    1 ≤ roundNum fd t a ∧ roundNum fd t a < a := by
  have hprod : fd * a = t * roundNum fd t a := h
  constructor
  · by_contra hzero
    obtain hzero : roundNum fd t a = 0 := by omega
    simp [hzero, hpos.ne', ha.ne'] at hprod
  · have hup : fd * a < t * a := Nat.mul_lt_mul_of_pos_right hlt ha
    exact Nat.lt_of_mul_lt_mul_left (hprod ▸ hup)

end

/-! ### The denominator a search ends at -/

/-- The candidate at `m` is the one R162 to R164 return: the nearest of the range, and nearer than every earlier
one. -/
structure EarliestNearest (fd t dm m : Nat) : Prop where
  two_le : 2 ≤ m
  le_dMax : m ≤ dm
  dist_le : ∀ a, 2 ≤ a → a ≤ dm → (candidate fd t m).dist ≤ (candidate fd t a).dist
  dist_lt : ∀ a, 2 ≤ a → a < m → (candidate fd t m).dist < (candidate fd t a).dist

/-- The path of a search that ends at denominator `m`. -/
def searchPath (fd t m : Nat) : Path := if (candidate fd t m).dist = 0 then .searchExact else .searchBest

/-- The result of a search that ends at denominator `m`. -/
def Inputs.searchDivider (x : Inputs) (m : Nat) : Divider :=
  x.divider x.baseDiv (roundNum (freqDiff x) x.tgtFreq m) m (searchPath (freqDiff x) x.tgtFreq m)

theorem searchPath_cases (fd t m : Nat) :
    (ExactAt fd t m ∧ searchPath fd t m = .searchExact) ∨ (¬ ExactAt fd t m ∧ searchPath fd t m = .searchBest) := by
  rw [exactAt_iff, searchPath]
  split
  · next h => exact .inl ⟨h, rfl⟩
  · next h => exact .inr ⟨h, rfl⟩

theorem searchPath_isSearch (fd t m : Nat) :
    searchPath fd t m = .searchExact ∨ searchPath fd t m = .searchBest :=
  (searchPath_cases fd t m).imp And.right And.right

@[simp] theorem searchPath_eq_searchExact {fd t m : Nat} : searchPath fd t m = .searchExact ↔ ExactAt fd t m := by
  rcases searchPath_cases fd t m with ⟨he, hp⟩ | ⟨he, hp⟩ <;> simp [he, hp]

@[simp] theorem searchPath_eq_searchBest {fd t m : Nat} : searchPath fd t m = .searchBest ↔ ¬ ExactAt fd t m := by
  rcases searchPath_cases fd t m with ⟨he, hp⟩ | ⟨he, hp⟩ <;> simp [he, hp]

@[simp] theorem searchPath_ne_exact {fd t m : Nat} : searchPath fd t m ≠ .exact := by
  rcases searchPath_isSearch fd t m with h | h <;> simp [h]

@[simp] theorem searchPath_ne_carry {fd t m : Nat} : searchPath fd t m ≠ .carry := by
  rcases searchPath_isSearch fd t m with h | h <;> simp [h]

/-- A search that is reached ends at the earliest nearest denominator, whether or not it is exact. -/
theorem Inputs.ReachesSearch.solve_ok {p : Params} {x : Inputs} (hx : x.ReachesSearch p) :
    ∃ m, EarliestNearest (freqDiff x) x.tgtFreq (dMax x.denBits) m ∧ solve p x = .ok (x.searchDivider m) := by
  rw [hx.solve_eq, searchResult]
  rcases search_cases (freqDiff x) x.tgtFreq (dMax x.denBits) (by have := hx.three_le_dMax; omega) with
    ⟨m, h2, hm, hexact, hfirst, hs⟩ | ⟨hnone, m, h2, hm, hs, hle, hlt⟩ <;> rw [hs]
  · have hdist := exactAt_iff.1 hexact
    refine ⟨m, ⟨h2, hm, fun a _ _ => hdist ▸ Nat.zero_le _, fun a ha ham => ?_⟩, ?_⟩
    · exact hdist ▸ Nat.pos_of_ne_zero (exactAt_iff.not.1 (hfirst a ha ham))
    · rw [Inputs.searchDivider, searchPath_eq_searchExact.2 hexact]
      rfl
  · refine ⟨m, ⟨h2, hm, hle, hlt⟩, ?_⟩
    rw [Inputs.searchDivider, searchPath_eq_searchBest.2 (hnone m h2 hm)]
    rfl

/-- The results of a solve, by path. -/
inductive OkBy (p : Params) (x : Inputs) : Divider → Prop where
  /-- Step 2 (R156). -/
  | exact (valid : x.Valid p) (noRemainder : freqDiff x = 0) : OkBy p x (x.divider x.baseDiv 0 1 .exact)
  /-- Step 4 (R158). -/
  | carry (valid : x.Valid p) (notTop : x.baseDiv ≠ 2 ^ 32 - 1) : OkBy p x (x.divider (x.baseDiv + 1) 0 1 .carry)
  /-- Steps 5 and 6 (R159 to R164). -/
  | search (reached : x.ReachesSearch p) (m : Nat)
      (nearest : EarliestNearest (freqDiff x) x.tgtFreq (dMax x.denBits) m) : OkBy p x (x.searchDivider m)

/-- Every result is that of its path. -/
theorem solve_okBy {p : Params} {x : Inputs} {d : Divider} (h : solve p x = .ok d) : OkBy p x d := by
  have searched (hx : x.ReachesSearch p) : OkBy p x d := by
    obtain ⟨m, hm, hs⟩ := hx.solve_ok
    cases hs.symm.trans h
    exact .search hx m hm
  obtain ⟨ht, hs, hc, ⟨hf, hd⟩ | ⟨-, -, hb, hd⟩ | ⟨hf, hk, -⟩ | ⟨hf, hk, -⟩⟩ := solve_ok_cases h
  · cases hd
    exact .exact ⟨ht, hs, hc⟩ hf
  · cases hd
    exact .carry ⟨ht, hs, hc⟩ hb
  · exact searched ⟨⟨ht, hs, hc⟩, hf, hk⟩
  · exact searched ⟨⟨ht, hs, hc⟩, hf, hk⟩

section
variable (x : Inputs) (m : Nat)

@[simp] theorem Inputs.searchDivider_int : (x.searchDivider m).int = x.baseDiv := rfl
@[simp] theorem Inputs.searchDivider_num :
    (x.searchDivider m).num = roundNum (freqDiff x) x.tgtFreq m := rfl
@[simp] theorem Inputs.searchDivider_den : (x.searchDivider m).den = m := rfl

end

/-! ### The nearest fraction against a competitor -/

section
variable {fd t dm m : Nat}

theorem EarliestNearest.le_crossDist (h : EarliestNearest fd t dm m) (ht : 0 < t) {a : Nat} (ha : 2 ≤ a)
    (hdm : a ≤ dm) (b : Nat) : (candidate fd t m).dist ≤ crossDist fd t a b :=
  (h.dist_le a ha hdm).trans (crossDist_roundNum_le ht a b)

theorem EarliestNearest.lt_crossDist (h : EarliestNearest fd t dm m) (ht : 0 < t) {a : Nat} (ha : 2 ≤ a)
    (ham : a < m) (b : Nat) : (candidate fd t m).dist < crossDist fd t a b :=
  (h.dist_lt a ha ham).trans_le (crossDist_roundNum_le ht a b)

/-- Removing a common factor would give an earlier candidate that is not farther (R168). -/
theorem EarliestNearest.num_ne_mul (h : EarliestNearest fd t dm m) (ht : 0 < t) {g a : Nat} (hg : 2 ≤ g)
    (ha : 2 ≤ a) (hm : m = g * a) (b : Nat) : roundNum fd t m ≠ g * b := by
  intro hnum
  have hlt := h.lt_crossDist ht ha (hm ▸ lt_mul_of_one_lt_left (by omega) hg) b
  rw [candidate_dist, hnum, hm, crossDist_mul] at hlt
  exact hlt.not_ge (Nat.le_mul_of_pos_left _ (by omega))

/-- A whole number is nearest at denominator 2 (R167, R179). -/
theorem EarliestNearest.eq_two_of_dvd_num (h : EarliestNearest fd t dm m) (ht : 0 < t)
    (hdvd : m ∣ roundNum fd t m) : m = 2 := by
  obtain ⟨b, hnum⟩ := hdvd
  by_contra hne
  have hlt := h.lt_crossDist ht le_rfl (lt_of_le_of_ne h.two_le (Ne.symm hne)) (2 * b)
  have hm := crossDist_mul (fd := fd) (t := t) m 1 b
  have h2 := crossDist_mul (fd := fd) (t := t) 2 1 b
  rw [Nat.mul_one] at hm h2
  rw [candidate_dist, hnum, hm, h2] at hlt
  exact hlt.not_ge (Nat.mul_le_mul_right _ h.two_le)

/-- The pair is in lowest terms, or a whole number spelled with denominator 2 (R168). -/
theorem EarliestNearest.coprime_or_two (h : EarliestNearest fd t dm m) (ht : 0 < t) :
    Nat.gcd (roundNum fd t m) m = 1 ∨ (m = 2 ∧ 2 ∣ roundNum fd t m) := by
  obtain ⟨b, hb⟩ := Nat.gcd_dvd_left (roundNum fd t m) m
  obtain ⟨a, ha⟩ := Nat.gcd_dvd_right (roundNum fd t m) m
  have hm := h.two_le
  have hg : 0 < Nat.gcd (roundNum fd t m) m := Nat.gcd_pos_of_pos_right _ (by omega)
  generalize Nat.gcd (roundNum fd t m) m = g at *
  rcases Nat.lt_or_ge a 2 with hlt | hge
  · obtain rfl : a = 1 := by
      rcases a with - | a <;> omega
    have hdvd : m ∣ roundNum fd t m := ⟨b, by rw [hb, ha, Nat.mul_one]⟩
    obtain rfl := h.eq_two_of_dvd_num ht hdvd
    exact .inr ⟨rfl, hdvd⟩
  · refine .inl (by_contra fun hne => ?_)
    exact h.num_ne_mul ht (by omega) hge ha b hb

/-- With `E = T - FD` positive and at most `T / 4`, and no carry under `DOC`, the denominator `c + 1 = T / E` is in
the range, and the numerator `c` is nearer than `E` there. -/
theorem exists_crossDist_lt_of_doc {e : Nat} (hpos : 0 < e) (hfour : 4 * e ≤ fd + e) (hdm : 1 ≤ dm)
    (hk : carries .doc fd (fd + e) dm = false) :
    ∃ c, 2 ≤ c + 1 ∧ c + 1 ≤ dm ∧ crossDist fd (fd + e) (c + 1) c < e := by
  have hrange : fd + e ≤ e * dm := by
    obtain ⟨k, rfl⟩ := Nat.exists_eq_add_of_le' hdm
    simp only [carries, decide_eq_false_iff_not, not_lt, Nat.add_sub_cancel] at hk
    linarith
  have hlow : 4 ≤ (fd + e) / e := (Nat.le_div_iff_mul_le hpos).2 hfour
  have hhigh : (fd + e) / e ≤ dm := Nat.div_le_of_le_mul hrange
  have hmul := Nat.mul_div_le (fd + e) e
  have hsucc := Nat.lt_mul_div_succ (fd + e) hpos
  obtain ⟨c, hc⟩ := Nat.exists_eq_add_of_le' (le_trans (by decide : 1 ≤ 4) hlow)
  rw [hc] at hlow hhigh hmul hsucc
  have hcross : crossDist fd (fd + e) (c + 1) c = ((e * c : Nat) - fd : Int).natAbs := by
    unfold crossDist
    congr 1
    push_cast
    ring
  refine ⟨c, by omega, hhigh, ?_⟩
  rw [hcross]
  simp only [Nat.mul_add] at hmul hsucc
  omega

/-- Under `DOC` the pair is no whole unit: that would be `2 / 2`, at distance `2 * (T - FD)`, and a nearer numerator
stands in the range (R166). -/
theorem EarliestNearest.num_lt_of_doc (h : EarliestNearest fd t dm m) (hlt : fd < t)
    (hk : carries .doc fd t dm = false) : roundNum fd t m < m := by
  refine lt_of_le_of_ne (roundNum_le hlt) fun hnum => ?_
  have ht : 0 < t := by omega
  obtain rfl := h.eq_two_of_dvd_num ht (dvd_of_eq hnum.symm)
  obtain ⟨e, rfl⟩ := Nat.exists_eq_add_of_le hlt.le
  have hdist : (candidate fd (fd + e) 2).dist = 2 * e := by
    rw [candidate_dist, hnum, crossDist]
    omega
  have hhalf : 2 * (candidate fd (fd + e) 2).dist ≤ fd + e := crossDist_roundNum_le_half ht 2
  rw [hdist] at hhalf
  obtain ⟨c, hlow, hhigh, hnear⟩ :=
    exists_crossDist_lt_of_doc (by omega) (by omega) (le_trans one_le_two h.le_dMax) hk
  have hle := h.le_crossDist ht hlow hhigh c
  omega

end

/-! ### The carry test on the rational `FD / T` (R157) -/

/-- The threshold of each rule, for a largest denominator `dm`. -/
def carryThreshold : CarryRule → ℚ → ℚ
  | .doc, dm => (dm - 1) / dm
  | .observed, dm => (2 * dm - 1) / (2 * dm)

theorem carries_iff {rule : CarryRule} {fd t dm : Nat} (ht : 0 < t) (hd : 1 ≤ dm) :
    carries rule fd t dm = true ↔ carryThreshold rule dm < (fd : ℚ) / t := by
  have ht' : (0 : ℚ) < t := by exact_mod_cast ht
  have hd' : (0 : ℚ) < dm := by exact_mod_cast hd
  cases rule
  · rw [carries, carryThreshold, div_lt_div_iff₀ hd' ht', decide_eq_true_iff, ← Nat.cast_pred hd]
    norm_cast
  · have hpred : ((2 * dm - 1 : Nat) : ℚ) = 2 * dm - 1 := by
      rw [Nat.cast_pred (by omega)]
      norm_cast
    rw [carries, carryThreshold, div_lt_div_iff₀ (by positivity) ht', decide_eq_true_iff, ← hpred, Nat.mul_assoc]
    norm_cast

theorem cast_dMax (denBits : Nat) : (dMax denBits : ℚ) = 2 ^ denBits - 1 := by
  rw [dMax, Nat.cast_pred (by positivity)]
  norm_cast

/-- Settles O47: the test is the comparison with the threshold; above it the solve carries, up to it a search is
reached. -/
theorem carryFiresAboveThreshold : Obligations.CarryFiresAboveThreshold := by
  intro p x hx hf dm threshold
  have hthr : threshold = carryThreshold p.carryRule dm := by
    cases hrule : p.carryRule <;> simp only [threshold, hrule, carryThreshold]
  have hk : carries p.carryRule (freqDiff x) x.tgtFreq (dMax x.denBits) = true ↔
      threshold < (freqDiff x : ℚ) / x.tgtFreq := by
    rw [carries_iff (Nat.pos_of_ne_zero hx.target) (dMax_pos hx.constraints), cast_dMax, hthr]
  refine ⟨fun habove => hx.solve_carry_by_one hf (hk.2 habove), fun hle => ?_⟩
  obtain ⟨m, -, hs⟩ := Inputs.ReachesSearch.solve_ok ⟨hx, hf, by simpa using hk.not.2 hle.not_gt⟩
  exact ⟨_, hs, searchPath_isSearch _ _ m⟩

/-- Settles O48: without a carry the remainder would be below `T`. -/
theorem farBaseCarriesByOne : Obligations.FarBaseCarriesByOne := by
  intro p x hx hfar
  have hpos := Nat.pos_of_ne_zero hx.target
  refine hx.solve_carry_by_one (by omega) ?_
  by_contra hk
  exact hfar.not_gt (freqDiff_lt_of_noCarry (by simpa using hk) (dMax_pos hx.constraints) hx.target)

/-- Settles O58: with `D_max = 1` the `DOC` test is `0 < FD`; the `OBSERVED` constraints refuse the width. -/
theorem oneBitDenominatorNeverSearches : Obligations.OneBitDenominatorNeverSearches := by
  refine ⟨fun p x hrule hdb hx => ?_, fun p x hx hrule hdb => ?_⟩
  · obtain ⟨-, -, -, hobs⟩ := badConstraints_false_iff.1 hx.constraints
    exact hobs ⟨hrule, hdb⟩
  · have hcarry (hf : freqDiff x ≠ 0) :=
      hx.solve_carry_by_one hf (by simpa [hrule, hdb, carries, dMax, Nat.pos_iff_ne_zero] using hf)
    exact ⟨fun hf => ⟨_, hx.solve_exact hf, rfl, rfl, rfl, rfl⟩, fun hf => (hcarry hf).2, fun hf => (hcarry hf).1⟩

/-- Settles O46: `S = T * B` leaves no remainder, and is not below it. -/
theorem exactMatchReturnsBase : Obligations.ExactMatchReturnsBase := by
  intro p x hx heq
  rw [hx.solve_exact (by simp [freqDiff, heq])]
  simp [Inputs.divider, negFlag, intRangeFlag, heq]

/-- Settles O49: the flags of `Inputs.divider`, which every path uses. -/
theorem flagsOfEveryResult : Obligations.FlagsOfEveryResult := by
  intro p x d h
  cases solve_okBy h <;> exact ⟨decide_eq_true_iff, decide_eq_true_iff⟩

/-! ### Ranges and lowest terms (R165 to R168) -/

/-- Settles O50: on the search paths `N ≤ D` by rounding, strictly for an exact match and under `DOC`. -/
theorem resultRangesByPath : Obligations.ResultRangesByPath := by
  refine ⟨⟨rfl, rfl, rfl, rfl⟩, fun p x d h => ?_⟩
  obtain ⟨hden, hmax, hnum⟩ := solve_fraction_bounds h
  have hfit : 1 ≤ d.den ∧ d.den ≤ 2 ^ x.denBits - 1 ∧ d.num < 2 ^ x.denBits ∧ d.den < 2 ^ x.denBits
      ∧ (x.InRange → d.int < 2 ^ 32) := by
    have hpow : 0 < 2 ^ x.denBits := by positivity
    unfold dMax at hmax
    exact ⟨hden, hmax, by omega, by omega, fun hin => solve_int_lt h hin.baseDiv⟩
  cases solve_okBy h with
  | exact hx hf => exact ⟨fun _ => ⟨rfl, rfl, rfl⟩, nofun, nofun, nofun, hfit⟩
  | carry hx hb => exact ⟨nofun, fun _ => ⟨rfl, rfl, rfl⟩, nofun, nofun, hfit⟩
  | search hx m hm =>
    refine ⟨fun hpath => absurd hpath searchPath_ne_exact, fun hpath => absurd hpath searchPath_ne_carry,
      fun hpath => ?_, fun _ => ?_, hfit⟩
    · obtain ⟨hpos, hlt⟩ := (searchPath_eq_searchExact.1 hpath).num_bounds hx.freqDiff_pos hx.freqDiff_lt hden
      exact ⟨rfl, hpos, hlt, hm.two_le, hmax⟩
    · exact ⟨rfl, hnum, fun hrule => hm.num_lt_of_doc hx.freqDiff_lt (hrule ▸ hx.noCarry), hm.two_le, hmax⟩

/-- Settles O53: the pair is in lowest terms or a whole number over 2, which is 0 or, never under `DOC`, 1. -/
theorem searchResultsInLowestTerms : Obligations.SearchResultsInLowestTerms := by
  intro p x d h hpath
  cases solve_okBy h with
  | exact hx hf => simp at hpath
  | carry hx hb => simp at hpath
  | search hx m hm =>
    have hle := roundNum_le (a := m) hx.freqDiff_lt
    refine (hm.coprime_or_two (Nat.pos_of_ne_zero hx.valid.target)).imp_right fun ⟨htwo, heven⟩ => ?_
    by_cases hzero : roundNum (freqDiff x) x.tgtFreq m = 0
    · exact .inl ⟨hzero, htwo⟩
    · have hnum : roundNum (freqDiff x) x.tgtFreq m = 2 := by omega
      refine .inr ⟨?_, hnum, htwo⟩
      cases hrule : p.carryRule with
      | observed => rfl
      | doc =>
        have hlt := hm.num_lt_of_doc hx.freqDiff_lt (hrule ▸ hx.noCarry)
        omega

/-! ### Zero numerators (R167) -/

/-- A zero numerator is spelled over 2, and is no exact match. -/
theorem EarliestNearest.eq_two_and_searchBest {p : Params} {x : Inputs} {m : Nat} (hx : x.ReachesSearch p)
    (hm : EarliestNearest (freqDiff x) x.tgtFreq (dMax x.denBits) m)
    (hnum : roundNum (freqDiff x) x.tgtFreq m = 0) :
    m = 2 ∧ searchPath (freqDiff x) x.tgtFreq m = .searchBest := by
  refine ⟨hm.eq_two_of_dvd_num (Nat.pos_of_ne_zero hx.valid.target) (hnum ▸ dvd_zero m),
    searchPath_eq_searchBest.2 fun hexact => ?_⟩
  have hpos := (hexact.num_bounds hx.freqDiff_pos hx.freqDiff_lt (Nat.lt_of_lt_of_le two_pos hm.two_le)).1
  omega

/-- A remainder below `1/(2 D_max)` does not carry under either rule. -/
theorem carries_eq_false_of_small {rule : CarryRule} {fd t dm : Nat} (hd : 2 ≤ dm) (hsmall : 2 * dm * fd < t) :
    carries rule fd t dm = false := by
  have hdoc : t ≤ (dm - 1) * t := Nat.le_mul_of_pos_left _ (by omega)
  have hobs : t ≤ (2 * dm - 1) * t := Nat.le_mul_of_pos_left _ (by omega)
  cases rule <;> rw [carries, decide_eq_false_iff_not, not_lt]
  · linarith [Nat.zero_le (fd * dm)]
  · linarith

theorem roundNum_eq_zero_of_small {fd t dm a : Nat} (ha : a ≤ dm) (hsmall : 2 * dm * fd < t) :
    roundNum fd t a = 0 := by
  have hle : 2 * a * fd ≤ 2 * dm * fd := Nat.mul_le_mul_right _ (Nat.mul_le_mul_left _ ha)
  exact Nat.div_eq_of_lt (by omega)

/-- Settles O52: a zero numerator of a search is over 2, and a small remainder rounds to 0 at every denominator. -/
theorem zeroNumeratorOnlyWithDenominatorOneOrTwo : Obligations.ZeroNumeratorOnlyWithDenominatorOneOrTwo := by
  refine ⟨fun p x d h hnum => ?_, fun p x hx hdb hf hsmall => ?_⟩
  · cases solve_okBy h with
    | exact hx hf => exact .inl ⟨rfl, .inl rfl⟩
    | carry hx hb => exact .inl ⟨rfl, .inr rfl⟩
    | search hx m hm => exact .inr (hm.eq_two_and_searchBest hx hnum)
  · have hdm : 2 ≤ dMax x.denBits := by
      have hpow := Nat.pow_le_pow_right two_pos hdb
      unfold dMax
      omega
    have hreach : x.ReachesSearch p := ⟨hx, hf, carries_eq_false_of_small hdm hsmall⟩
    obtain ⟨m, hm, hs⟩ := hreach.solve_ok
    have hnum := roundNum_eq_zero_of_small hm.le_dMax hsmall
    obtain ⟨htwo, hpath⟩ := hm.eq_two_and_searchBest hreach hnum
    exact ⟨_, hs, rfl, hnum, htwo, hpath⟩

/-! ### The `OBSERVED` rule (R166, R179) -/

/-- Whether a search is reached depends on the parameters by the carry rule and the width limit only. -/
theorem Inputs.ReachesSearch.of_carryRule {p q : Params} {x : Inputs} (hx : x.ReachesSearch q)
    (hrule : p.carryRule = q.carryRule) (hmax : x.denBits ≤ p.denBitsMax) : x.ReachesSearch p := by
  obtain ⟨⟨ht, hs, hc⟩, hf, hk⟩ := hx
  obtain ⟨hdb, -, hib, hobs⟩ := badConstraints_false_iff.1 hc
  exact ⟨⟨ht, hs, badConstraints_false_iff.2 ⟨hdb, hmax, hib, hrule ▸ hobs⟩⟩, hf, hrule ▸ hk⟩

section
variable {p : Params} (hmax : 6 ≤ p.denBitsMax) (hrule : p.carryRule = .observed)
include hmax hrule

/-- A remainder of exactly the threshold 125/126 is searched, and spelled 2/2 (vector V-S14). -/
theorem solve_observed_251_126_1 :
    solve p { srcFreq := 251, tgtFreq := 126, baseDiv := 1, intBits := 32, denBits := 6 }
      = .ok { int := 1, num := 2, den := 2, path := .searchBest, neg := false, intRange := false } := by
  rw [Inputs.ReachesSearch.solve_eq (.of_carryRule (q := ⟨0, 6, .observed⟩)
    ⟨⟨by decide, by decide, by decide⟩, by decide, by decide⟩ hrule hmax)]
  decide +kernel

/-- A remainder of 99/100, inside the band, is spelled 2/2 (vector V-S16). -/
theorem solve_observed_1099_100_10 :
    solve p { srcFreq := 1099, tgtFreq := 100, baseDiv := 10, intBits := 32, denBits := 6 }
      = .ok { int := 10, num := 2, den := 2, path := .searchBest, neg := false, intRange := false } := by
  rw [Inputs.ReachesSearch.solve_eq (.of_carryRule (q := ⟨0, 6, .observed⟩)
    ⟨⟨by decide, by decide, by decide⟩, by decide, by decide⟩ hrule hmax)]
  decide +kernel

end

/-- Settles O51: a whole unit is spelled 2/2, which `DOC` excludes and V-S14 shows under `OBSERVED`. -/
theorem numeratorBelowDenominator : Obligations.NumeratorBelowDenominator := by
  refine ⟨fun p x d hrule h hden => ?_, fun p x d _ h hden => ?_,
    ⟨0, 6, .observed⟩, _, _, rfl, rfl, solve_observed_251_126_1 le_rfl rfl, rfl⟩
  · cases solve_okBy h with
    | exact hx hf => exact Nat.one_pos
    | carry hx hb => exact Nat.one_pos
    | search hx m hm => exact hm.num_lt_of_doc hx.freqDiff_lt (hrule ▸ hx.noCarry)
  · cases solve_okBy h with
    | exact hx hf => exact .inl Nat.one_pos
    | carry hx hb => exact .inl Nat.one_pos
    | search hx m hm =>
      refine (roundNum_le hx.freqDiff_lt).lt_or_eq.imp_right fun hnum => ?_
      have htwo := hm.eq_two_of_dvd_num (Nat.pos_of_ne_zero hx.valid.target) (dvd_of_eq hnum.symm)
      exact ⟨hnum.trans htwo, htwo⟩

/-- Settles O59: in the band the `OBSERVED` test fails and the `DOC` test holds. -/
theorem observedRuleSearchesTheBand : Obligations.ObservedRuleSearchesTheBand := by
  refine ⟨fun p x hx hrule hf hlow hhigh => ⟨?_, decide_eq_true hlow⟩,
    fun p _ hmax hrule => ⟨solve_observed_251_126_1 hmax hrule, solve_observed_1099_100_10 hmax hrule⟩⟩
  have hk : carries p.carryRule (freqDiff x) x.tgtFreq (dMax x.denBits) = false := by
    rw [hrule, carries, decide_eq_false_iff_not, not_lt, Nat.mul_assoc]
    exact hhigh
  obtain ⟨m, -, hs⟩ := Inputs.ReachesSearch.solve_ok ⟨hx, hf, hk⟩
  exact ⟨_, hs, searchPath_isSearch _ _ m⟩

/-! ### Which search path, and which pair (R163, R164, R175) -/

/-- A reduced denominator within the range is where the search ends. -/
theorem EarliestNearest.eq_div_gcd {fd t dm m : Nat} (h : EarliestNearest fd t dm m) (ht : 0 < t)
    (hq : 2 ≤ t / Nat.gcd fd t) (hdm : t / Nat.gcd fd t ≤ dm) : m = t / Nat.gcd fd t := by
  have hzero : (candidate fd t (t / Nat.gcd fd t)).dist = 0 :=
    exactAt_iff.1 ((exactAt_iff_div_gcd_dvd ht).2 dvd_rfl)
  have hm : (candidate fd t m).dist = 0 := Nat.le_zero.1 (hzero ▸ h.dist_le _ hq hdm)
  have hle := Nat.le_of_dvd (Nat.lt_of_lt_of_le two_pos h.two_le) ((exactAt_iff_div_gcd_dvd ht).1 (exactAt_iff.2 hm))
  refine le_antisymm (Nat.not_lt.1 fun hlt => ?_) hle
  exact Nat.not_lt_zero _ (hzero ▸ h.dist_lt _ hq hlt)

/-- The numerator of the reduced fraction. -/
theorem roundNum_div_gcd {fd t : Nat} (ht : 0 < t) :
    roundNum fd t (t / Nat.gcd fd t) = fd / Nat.gcd fd t := by
  have hexact : fd * (t / Nat.gcd fd t) = t * roundNum fd t (t / Nat.gcd fd t) :=
    (exactAt_iff_div_gcd_dvd ht).2 dvd_rfl
  refine Nat.eq_of_mul_eq_mul_left ht (hexact.symm.trans ?_)
  rw [← Nat.mul_div_assoc _ (Nat.gcd_dvd_right fd t), ← Nat.mul_div_assoc _ (Nat.gcd_dvd_left fd t), Nat.mul_comm]

/-- A proper fraction has a reduced denominator of at least 2. -/
theorem two_le_div_gcd {fd t : Nat} (hpos : 0 < fd) (hlt : fd < t) : 2 ≤ t / Nat.gcd fd t := by
  have hg : Nat.gcd fd t ≤ fd := Nat.gcd_le_left t hpos
  by_contra hq
  have hmul := Nat.div_mul_cancel (Nat.gcd_dvd_right fd t)
  have hle : t / Nat.gcd fd t * Nat.gcd fd t ≤ 1 * Nat.gcd fd t := Nat.mul_le_mul_right _ (by omega)
  omega

/-- Settles O54: the exact matches are the multiples of `q`. -/
theorem searchPathByReducedDenominator : Obligations.SearchPathByReducedDenominator := by
  intro p x hx g q
  have ht := Nat.pos_of_ne_zero hx.valid.target
  have hq : 2 ≤ q := two_le_div_gcd hx.freqDiff_pos hx.freqDiff_lt
  obtain ⟨m, hm, hs⟩ := hx.solve_ok
  have hexact : ExactAt (freqDiff x) x.tgtFreq m ↔ q ∣ m := exactAt_iff_div_gcd_dvd ht
  refine ⟨hq, fun hle => ?_, fun hgt => ⟨_, hs, searchPath_eq_searchBest.2 fun he => ?_, rfl⟩⟩
  · obtain rfl : m = q := hm.eq_div_gcd ht hq hle
    exact ⟨_, hs, searchPath_eq_searchExact.2 (hexact.2 dvd_rfl), rfl, rfl, roundNum_div_gcd ht⟩
  · have hqm := Nat.le_of_dvd (Nat.lt_of_lt_of_le two_pos hm.two_le) (hexact.1 he)
    exact (hqm.trans hm.le_dMax).not_gt hgt

/-- The rounded numerator is the floor of the rational of R160. -/
theorem toNat_floor_eq_roundNum {fd t : Nat} (ht : 0 < t) (a : Nat) :
    ⌊(a : ℚ) * (fd : ℚ) / (t : ℚ) + 1 / 2⌋.toNat = roundNum fd t a := by
  have ht' : (t : ℚ) ≠ 0 := by exact_mod_cast ht.ne'
  have hhalf : (a : ℚ) * fd / t + 1 / 2 = ((2 * a * fd + t : Nat) : ℚ) / ((2 * t : Nat) : ℚ) := by
    push_cast
    field_simp
  rw [hhalf, Int.floor_toNat, Nat.floor_div_eq_div, roundNum]

/-- A candidate's distance as an absolute value (R161). -/
theorem cast_crossDist (fd t a b : Nat) : (crossDist fd t a b : Int) = |(t : Int) * b - (fd : Int) * a| :=
  Int.natCast_natAbs _

/-- Settles O55: the pair is `EarliestNearest`, its numerator and distance read on rationals and integers. -/
theorem bestPairIsEarliestMinimum : Obligations.BestPairIsEarliestMinimum := by
  intro p x d h hpath fd t num dist
  cases solve_okBy h with
  | exact hx hf => simp at hpath
  | carry hx hb => simp at hpath
  | search hx m hm =>
    have hnum (a : Nat) : num a = roundNum fd t a := toNat_floor_eq_roundNum (Nat.pos_of_ne_zero hx.valid.target) a
    have hdist (a : Nat) : dist a = (candidate fd t a).dist := by
      rw [candidate_dist, cast_crossDist, ← hnum]
    have hinexact : ¬ ExactAt fd t m := searchPath_eq_searchBest.1 hpath
    rw [exactAt_iff] at hinexact
    simp only [hdist, Nat.cast_le, Nat.cast_lt, ne_eq, Nat.cast_eq_zero]
    refine ⟨rfl, (hnum m).symm, hm.two_le, hm.le_dMax, fun a ha hmax => ?_, hm.dist_le, hm.dist_lt⟩
    exact ((Nat.pos_of_ne_zero hinexact).trans_le (hm.dist_le a ha hmax)).ne'

/-! ### The frequency error (R169, R170) -/

/-- The remainder without its sign, over natural numbers (R155); one of the two differences is 0. -/
theorem freqDiff_eq (x : Inputs) :
    freqDiff x = (x.srcFreq - x.tgtFreq * x.baseDiv) + (x.tgtFreq * x.baseDiv - x.srcFreq) := by
  rw [freqDiff, ← Nat.cast_mul]
  omega

section
variable {x : Inputs}

/-- With `S ≥ T*B` the fraction makes up for the remainder. -/
theorem signedError_of_neg_false (h : negFlag x.srcFreq x.tgtFreq x.baseDiv = false) (n d : Int) :
    (x.tgtFreq : Int) * (x.baseDiv * d + n) - x.srcFreq * d = x.tgtFreq * n - freqDiff x * d := by
  have hfd : (freqDiff x : Int) = x.srcFreq - x.tgtFreq * x.baseDiv := by
    rw [negFlag, decide_eq_false_iff_not] at h
    rw [freqDiff_eq, ← Nat.cast_mul]
    omega
  rw [hfd]
  ring

/-- With `S < T*B` the fraction adds to the remainder. -/
theorem signedError_of_neg_true (h : negFlag x.srcFreq x.tgtFreq x.baseDiv = true) (n d : Int) :
    (x.tgtFreq : Int) * (x.baseDiv * d + n) - x.srcFreq * d = freqDiff x * d + x.tgtFreq * n := by
  have hfd : (freqDiff x : Int) = x.tgtFreq * x.baseDiv - x.srcFreq := by
    rw [negFlag, decide_eq_true_iff] at h
    rw [freqDiff_eq, ← Nat.cast_mul]
    omega
  rw [hfd]
  ring

end

/-- Settles O56: the chosen pair is no farther than the numerator 0, and the sign of the remainder decides whether
the fraction makes up for it or adds to it. -/
theorem errorOfResultByPathAndSign : Obligations.ErrorOfResultByPathAndSign := by
  intro p x d h
  dsimp only
  cases solve_okBy h with
  | exact hx hf => exact ⟨nofun, nofun⟩
  | carry hx hb =>
    have hunit : ((x.baseDiv + 1 : Nat) : Int) * (1 : Nat) + (0 : Nat) = x.baseDiv * 1 + 1 := by
      push_cast
      ring
    simp only [Inputs.divider_int, Inputs.divider_num, Inputs.divider_den]
    rw [hunit, Nat.cast_one]
    refine ⟨nofun, fun _ => ⟨fun hneg => ?_, fun hneg => ?_⟩⟩
    · rw [signedError_of_neg_false hneg, mul_one, mul_one]
    · rw [signedError_of_neg_true hneg, mul_one, mul_one]
      exact abs_of_nonneg (by positivity)
  | search hx m hm =>
    refine ⟨fun _ => ?_, fun hpath => absurd hpath searchPath_ne_carry⟩
    simp only [Inputs.searchDivider_int, Inputs.searchDivider_num, Inputs.searchDivider_den]
    have ht := Nat.pos_of_ne_zero hx.valid.target
    have hzero : crossDist (freqDiff x) x.tgtFreq m 0 = freqDiff x * m := by
      simp [crossDist, Int.natAbs_mul]
    refine ⟨?_, ?_, fun hnum => ?_, fun hneg => ?_, fun hneg => ?_⟩
    · rw [← cast_crossDist]
      exact_mod_cast hzero ▸ crossDist_roundNum_le ht m 0
    · rw [← cast_crossDist]
      exact_mod_cast crossDist_roundNum_le_half ht m
    · rw [hnum, ← cast_crossDist]
      exact_mod_cast hzero
    · rw [signedError_of_neg_false hneg]
    · rw [signedError_of_neg_true hneg, abs_of_nonneg (by positivity)]

/-! ### What a result does not depend on (R176) -/

/-- A result whose range flag is taken with another `IB` (R174). -/
def SolveResult.withIntBits (k : Nat) : SolveResult → SolveResult
  | .ok d => .ok { d with intRange := intRangeFlag d.int k }
  | .error e => .error e

@[simp] theorem freqDiff_withIntBits (x : Inputs) (k : Nat) : freqDiff { x with intBits := k } = freqDiff x := rfl

theorem finish_withIntBits (x : Inputs) (k int num den : Nat) (path : Path) :
    finish { x with intBits := k } int num den path = (finish x int num den path).withIntBits k := rfl

theorem carryResult_withIntBits (x : Inputs) (k : Nat) :
    carryResult { x with intBits := k } = (carryResult x).withIntBits k := by
  unfold carryResult
  split <;> rfl

theorem searchResult_withIntBits (x : Inputs) (k : Nat) :
    searchResult { x with intBits := k } = (searchResult x).withIntBits k := by
  simp only [searchResult, freqDiff_withIntBits]
  split <;> rfl

/-- Steps 2 to 6 use the parameters by the carry rule and `IB` by the range flag only. -/
theorem divide_withIntBits {p q : Params} (hrule : p.carryRule = q.carryRule) (x : Inputs) (k : Nat) :
    divide q { x with intBits := k } = (divide p x).withIntBits k := by
  simp only [divide, freqDiff_withIntBits, finish_withIntBits, carryResult_withIntBits, searchResult_withIntBits, hrule]
  split_ifs <;> rfl

/-- A solve with a result passed the validation, so the result is that of steps 2 to 6. -/
theorem divide_of_solve_ok {p : Params} {x : Inputs} {d : Divider} (h : solve p x = .ok d) : divide p x = .ok d := by
  obtain ⟨ht, hs, hc, -⟩ := solve_ok_cases h
  rw [← Inputs.Valid.solve_eq ⟨ht, hs, hc⟩, h]

/-- Settles O57: the two inputs differ in `IB` at most, and so do the two results in `INT_RANGE`. -/
theorem resultIndependentOfIntBits : Obligations.ResultIndependentOfIntBits := by
  intro p q x y d e hrule hsrc htgt hbase hden hx hy
  have hyx : y = { x with intBits := y.intBits } := by
    rw [hsrc, htgt, hbase, hden]
  have he := divide_of_solve_ok hy
  rw [hyx, divide_withIntBits hrule, divide_of_solve_ok hx] at he
  cases he
  exact ⟨rfl, rfl, rfl, rfl, rfl⟩

/-! ### Widths (R173) -/

/-- Settles O60: the products of the register widths, with `FD < T` and `N ≤ D` in a search. -/
theorem intermediateWidthsSuffice : Obligations.IntermediateWidthsSuffice := by
  intro p x hp hin hx
  have hprod : x.tgtFreq * x.baseDiv ≤ (2 ^ 32 - 1) * (2 ^ 32 - 1) :=
    Nat.mul_le_mul (Nat.le_sub_one_of_lt hin.tgtFreq) (Nat.le_sub_one_of_lt hin.baseDiv)
  have hfd : freqDiff x ≤ 2 ^ 64 - 2 ^ 33 := by
    have hs := hin.srcFreq
    have hpos := hx.source
    rw [freqDiff_eq]
    omega
  have hdm := dMax_lt hp hx.constraints
  have hcarry : freqDiff x * (2 * dMax x.denBits) ≤ (2 ^ 64 - 2 ^ 33) * (2 * 2 ^ 16) :=
    Nat.mul_le_mul hfd (by omega)
  refine ⟨by omega, hfd, by rw [Nat.mul_assoc]; omega, fun hreach => ?_⟩
  have ht := hin.tgtFreq
  have hpos := hreach.freqDiff_pos
  have hlt := hreach.freqDiff_lt
  refine ⟨hpos, by omega, fun a _ ha => ?_⟩
  have hlhs : freqDiff x * a < 2 ^ 32 * 2 ^ 16 := Nat.mul_lt_mul'' (by omega) (by omega)
  have hrhs : x.tgtFreq * roundNum (freqDiff x) x.tgtFreq a < 2 ^ 32 * 2 ^ 16 :=
    Nat.mul_lt_mul'' ht ((roundNum_le hlt).trans_lt (by omega))
  have hround : 2 * a * freqDiff x = 2 * (freqDiff x * a) := by ring
  refine ⟨by omega, by omega, by omega, ?_⟩
  unfold crossDist
  rw [← Nat.cast_mul, ← Nat.cast_mul]
  omega

end Sys2Proof.Machine

/-! ## Errors and simultaneous events (spec/60_exceptions.md)

A solve reports the first check that fails, one lemma per check. Two events of one cycle are two steps in either
order (R205): each agent's entry has its equation for `advance`, and the completion commutes with what does not
touch `STATUS`, the results or the snapshot. -/

namespace Sys2Proof.Machine

/-! ### The order of the checks (R204) -/

section
variable {p : Params} {x : Inputs}

theorem solve_targetZero (ht : x.tgtFreq = 0) : solve p x = .error .targetZero := if_pos ht

theorem solve_sourceZero (ht : x.tgtFreq ≠ 0) (hs : x.srcFreq = 0) : solve p x = .error .sourceZero := by
  rw [solve, if_neg ht, if_pos hs]

theorem solve_badConstraints (ht : x.tgtFreq ≠ 0) (hs : x.srcFreq ≠ 0) (hc : badConstraints p x = true) :
    solve p x = .error .badConstraints := by
  rw [solve, if_neg ht, if_neg hs, if_pos hc]

/-- `CARRY_OVERFLOW` is the error of a later step, so every check before it passed. -/
theorem valid_of_solve_carryOverflow (h : solve p x = .error .carryOverflow) : x.Valid p := by
  have ht : x.tgtFreq ≠ 0 := fun h0 => by simp [solve_targetZero h0] at h
  have hs : x.srcFreq ≠ 0 := fun h0 => by simp [solve_sourceZero ht h0] at h
  refine ⟨ht, hs, Bool.eq_false_of_not_eq_true fun hc => ?_⟩
  simp [solve_badConstraints ht hs hc] at h

/-- What failing the constraints check means (R152). -/
theorem badConstraints_iff :
    badConstraints p x = true ↔
      x.denBits = 0 ∨ p.denBitsMax < x.denBits ∨ 32 < x.intBits ∨ (p.carryRule = .observed ∧ x.denBits = 1) :=
  decide_eq_true_iff

end

/-- Settles O45, check by check. -/
theorem errorsReportedInPriorityOrder : Obligations.ErrorsReportedInPriorityOrder := by
  intro p x
  refine ⟨solve_targetZero, solve_sourceZero, fun ht hs hc => solve_badConstraints ht hs (badConstraints_iff.2 hc),
    fun h => ?_⟩
  obtain ⟨ht, hs, hc⟩ := valid_of_solve_carryOverflow h
  obtain ⟨hzero, hmax, hint, hone⟩ := badConstraints_false_iff.1 hc
  exact ⟨ht, hs, hzero, hmax, hint, fun hrule hdb => hone ⟨hrule, hdb⟩⟩

/-! ### The step of each entry -/

section
variable {s : State} {rest : List Event}

theorem advance_engine_busy (hb : s.block.status.busy = true) :
    advance (s.withSchedule (.engine :: rest)) = (complete s).withSchedule rest := by
  rw [advance_next (step_engine rfl), State.withSchedule_withSchedule, engineTurn_busy (by exact hb),
    complete_withSchedule]

/-- An engine's entry met while idle passes (log entry 3). -/
theorem advance_engine_idle (hb : s.block.status.busy = false) :
    advance (s.withSchedule (.engine :: rest)) = s.withSchedule rest := by
  rw [advance_next (step_engine rfl), State.withSchedule_withSchedule, engineTurn_idle (by exact hb)]

theorem advance_reset : advance (s.withSchedule (.reset :: rest)) = (resetEvent s).withSchedule rest := by
  rw [advance_next (step_reset rfl)]
  rfl

/-- A reset leaves reset values in every state (70_reset_and_hazards.md R230). -/
theorem advance_block_of_reset (hs : s.schedule = .reset :: rest) :
    (advance s).block = Block.reset s.params (freeSnapshot s.free) := by
  rw [advance_next (step_reset hs)]
  rfl

/-- A scheduled access takes the step its operation means. -/
theorem advance_access {i : Instr} {t : State} (h : exec i (s.withSchedule rest) = .next t) :
    advance (s.withSchedule (.bus (encodeAccess s.params i) :: rest)) = t :=
  advance_next ((stepRunsDecodedAccess.2 _ i rest rfl).trans h)

/-- The converse of `advance_access`: every operation has a meaning. -/
theorem exec_eq_next_advance (i : Instr) :
    exec i (s.withSchedule rest) = .next (advance (s.withSchedule (.bus (encodeAccess s.params i) :: rest))) := by
  obtain ⟨t, ht⟩ := exec_next i (s.withSchedule rest)
  rw [advance_access ht, ht]

/-- A `CTRL` write to a busy block is dropped (41_commands.md R137). -/
theorem advance_wrCtrl_busy (hb : s.block.status.busy = true) (v : Word) :
    advance (s.withSchedule (.bus (encodeAccess s.params (.wrCtrl v)) :: rest)) = s.withSchedule rest :=
  advance_access (exec_wrCtrl_busy (by exact hb) v)

theorem advance_writeInstr (r : Reg) (v : Word) :
    advance (s.withSchedule (.bus (encodeAccess s.params (writeInstr r v)) :: rest))
      = (busWrite r v s).withSchedule rest := by
  rw [advance_access (exec_writeInstr r v _), busWrite_withSchedule]

/-- A read of `STATUS` returns its word and leaves the block. -/
theorem advance_rdStatus :
    advance (s.withSchedule (.bus (encodeAccess s.params .rdStatus) :: rest))
      = (s.respond s.block.status.word).withSchedule rest :=
  advance_access (exec_readInstr .status _)

end

/-! ### What commutes with the completion -/

@[simp] theorem complete_params (s : State) : (complete s).params = s.params := (complete_frame s).1

/-- The completion neither uses nor changes what a read returned. -/
theorem complete_respond (s : State) (v : Word) : complete (s.respond v) = (complete s).respond v := by
  unfold complete
  simp only [State.respond_params, State.respond_block]
  cases solve s.params s.block.snap.inputs <;> rfl

/-- A running solve uses its snapshot, not the input registers (20_memory.md R63), and writes none of them. -/
theorem complete_busWrite {r : Reg} (hr : r ≠ .ctrl) (v : Word) (s : State) :
    complete (busWrite r v s) = busWrite r v (complete s) := by
  unfold complete
  rw [(busWrite_frame r v s).1, busWrite_snap_of_ne_ctrl hr]
  cases solve s.params s.block.snap.inputs <;> cases r with
  | ctrl => exact absurd rfl hr
  | _ => rfl

/-- A reset overwrites all that the completion writes. -/
theorem resetEvent_complete (s : State) : resetEvent (complete s) = resetEvent s := by
  rcases complete_cases s with ⟨d, -, h⟩ | ⟨e, -, h⟩ <;> rw [h] <;> rfl

theorem ne_ctrl_of_isInput {r : Reg} (hr : r.isInput = true) : r ≠ .ctrl := by
  rintro rfl
  exact Bool.false_ne_true hr

/-! ### The pairs of R205 -/

theorem advanceN_two (s : State) : advanceN 2 s = advance (advance s) := rfl

/-- After a reset no solve is left to complete. -/
theorem advanceN_reset_engine (s : State) (rest : List Event) :
    advanceN 2 (s.withSchedule (.reset :: .engine :: rest)) = (resetEvent s).withSchedule rest := by
  rw [advanceN_two, advance_reset, advance_engine_idle rfl]

/-- An access after a reset acts on the reset state. -/
theorem advanceN_reset_access (s : State) (rest : List Event) (i : Instr) :
    exec i ((resetEvent s).withSchedule rest)
      = .next (advanceN 2 (s.withSchedule (.reset :: .bus (encodeAccess s.params i) :: rest))) := by
  rw [advanceN_two, advance_reset, exec_eq_next_advance, resetEvent_params]

/-- A reset after any entry leaves reset values. -/
theorem advanceN_entry_reset (s : State) (e : Event) (rest : List Event) :
    ∃ snap, (advanceN 2 (s.withSchedule (e :: .reset :: rest))).block = Block.reset s.params snap := by
  have hblock := advance_block_of_reset (rest := rest) (advance_schedule (s.withSchedule (e :: .reset :: rest)))
  rw [advance_params, State.withSchedule_params] at hblock
  exact ⟨_, hblock⟩

section
variable {s : State} (hb : s.block.status.busy = true) (rest : List Event)
include hb

/-- The write is dropped before the completion. -/
theorem advanceN_wrCtrl_engine (v : Word) :
    advanceN 2 (s.withSchedule (.bus (encodeAccess s.params (.wrCtrl v)) :: .engine :: rest))
      = (complete s).withSchedule rest := by
  rw [advanceN_two, advance_wrCtrl_busy hb, advance_engine_busy hb]

/-- An access after the completion acts on the completed state. -/
theorem advanceN_engine_access (i : Instr) :
    exec i ((complete s).withSchedule rest)
      = .next (advanceN 2 (s.withSchedule (.engine :: .bus (encodeAccess s.params i) :: rest))) := by
  rw [advanceN_two, advance_engine_busy hb, exec_eq_next_advance, complete_params]

/-- An input's write and the completion commute. -/
theorem advanceN_inputWrite_engine_comm {r : Reg} (hr : r.isInput = true) (v : Word) :
    advanceN 2 (s.withSchedule (.bus (encodeAccess s.params (writeInstr r v)) :: .engine :: rest))
      = advanceN 2 (s.withSchedule (.engine :: .bus (encodeAccess s.params (writeInstr r v)) :: rest)) := by
  have hne := ne_ctrl_of_isInput hr
  have hbusy : (busWrite r v s).block.status.busy = true := by rw [busWrite_status_of_ne_ctrl hne, hb]
  rw [advanceN_two, advanceN_two, advance_writeInstr, advance_engine_busy hbusy, advance_engine_busy hb,
    complete_busWrite hne, ← complete_params s, advance_writeInstr]

/-- A `STATUS` read before the completion returns the running solve's word. -/
theorem advanceN_rdStatus_engine :
    advanceN 2 (s.withSchedule (.bus (encodeAccess s.params .rdStatus) :: .engine :: rest))
      = ((complete s).respond s.block.status.word).withSchedule rest := by
  rw [advanceN_two, advance_rdStatus, advance_engine_busy (by exact hb), complete_respond]

/-- A `STATUS` read after the completion returns the completed word. -/
theorem advanceN_engine_rdStatus :
    advanceN 2 (s.withSchedule (.engine :: .bus (encodeAccess s.params .rdStatus) :: rest))
      = ((complete s).respond (complete s).block.status.word).withSchedule rest := by
  rw [advanceN_two, advance_engine_busy hb, ← complete_params s, advance_rdStatus]

/-- A reset clears the completed result. -/
theorem advanceN_engine_reset :
    advanceN 2 (s.withSchedule (.engine :: .reset :: rest)) = (resetEvent s).withSchedule rest := by
  rw [advanceN_two, advance_engine_busy hb, advance_reset, resetEvent_complete]

end

/-- Settles O35, pair by pair: each order is two steps, and the completion commutes with a data write, a read and a
reset. -/
theorem simultaneousEventsInBothOrders : Obligations.SimultaneousEventsInBothOrders := by
  refine ⟨fun s rest v hb => ⟨advanceN_wrCtrl_engine hb rest v, advanceN_engine_access hb rest (.wrCtrl v)⟩,
    fun s rest r v hb hr => advanceN_inputWrite_engine_comm hb rest hr v, fun s rest hb => ?_, fun s rest hb => ?_,
    fun s rest i => ⟨advanceN_reset_access s rest i, advanceN_entry_reset s _ rest⟩⟩
  · dsimp only
    rw [advanceN_rdStatus_engine hb, advanceN_engine_rdStatus hb]
    exact ⟨rfl, rfl, rfl⟩
  · rw [advanceN_reset_engine, advanceN_engine_reset hb]
    exact ⟨rfl, freeSnapshot s.free, rfl⟩

end Sys2Proof.Machine

/-! ## Reset and hazards (spec/70_reset_and_hazards.md)

A reset leaves an idle block, so its unspecified snapshot falls under `idleSnapshotIsUnobservable`. A block without a
result stays `AtResetResults` through every effect of a step but an accepted `SOLVE`. A `SOLVE` right after a reset
captures the reset inputs, whose target of 0 is the first check of `Solve`. -/

namespace Sys2Proof.Machine

/-! ### The reset event (R230) -/

/-- Settles O2: the state is `resetEvent`, which is idle, and no run shows an idle block's snapshot. -/
theorem resetEventSetsEveryRegister : Obligations.ResetEventSetsEveryRegister := by
  intro s rest hs
  have hsnap : ∀ sn, SameButIdleSnapshot (resetEvent (s.withSchedule rest))
      ((resetEvent (s.withSchedule rest)).withSnap sn) := .withSnap rfl
  refine ⟨_, step_reset hs, rfl, rfl, rfl, rfl, rfl, rfl, rfl, rfl, Status.clear_word, rfl, rfl, rfl, rfl, rfl, rfl,
    fun sn n r => ?_⟩
  obtain ⟨-, -, hread⟩ := idleSnapshotIsUnobservable _ _ (hsnap sn) n
  exact (hread r).symm

/-! ### No result until the next `SOLVE` (R231) -/

/-- The block is idle without a result, and the result registers hold their reset values. `ERR` is left out: a
reserved command sets it. -/
structure Block.AtResetResults (b : Block) : Prop where
  idle : b.status.busy = false
  notDone : b.status.done = false
  resInt : b.resInt = 0#32
  resNum : b.resNum = 0#32
  resDen : b.resDen = 1#32

theorem Block.reset_atResetResults (p : Params) (sn : Snapshot) : (Block.reset p sn).AtResetResults :=
  ⟨rfl, rfl, rfl, rfl, rfl⟩

/-- No `SOLVE` is scheduled. -/
def State.NoSolveScheduled (s : State) : Prop := ∀ e ∈ s.schedule, ¬ e.IsSolve s.params

theorem State.NoSolveScheduled.advance {s : State} (h : s.NoSolveScheduled) : (advance s).NoSolveScheduled := by
  unfold State.NoSolveScheduled
  rw [advance_schedule, advance_params]
  exact fun e he => h e (List.mem_of_mem_tail he)

/-- Of the effects of a step only an accepted `SOLVE` makes a block without a result busy. -/
theorem SolveEffect.atResetResults {s : State} {b : Block} (h : SolveEffect s b) (hs : s.block.AtResetResults)
    (hno : s.NoSolveScheduled) : b.AtResetResults := by
  obtain ⟨hidle, hdone, hint, hnum, hden⟩ := hs
  cases h with
  | kept same =>
    exact ⟨same.status ▸ hidle, same.status ▸ hdone, same.resInt.trans hint, same.resNum.trans hnum,
      same.resDen.trans hden⟩
  | completed hn hb hblock => simp [hidle] at hb
  | reset rest hr sn hblock => exact hblock ▸ Block.reset_atResetResults _ sn
  | started e rest hr hsolve hidle' hblock => exact absurd hsolve (hno e (hr ▸ List.mem_cons_self))
  | cleared hidle' hblock => exact hblock ▸ ⟨rfl, rfl, hint, hnum, hden⟩
  | rejected hidle' hblock => exact hblock ▸ ⟨hidle, hdone, hint, hnum, hden⟩

/-- A fault and a refusal leave the block too. -/
theorem Block.AtResetResults.advance {s : State} (h : s.block.AtResetResults) (hno : s.NoSolveScheduled) :
    (advance s).block.AtResetResults := by
  cases ho : step s with
  | next t => rw [advance_next ho]; exact (step_solveEffect ho).atResetResults h hno
  | fault f => rw [advance_fault ho]; exact h
  | refused q => rw [advance_refused ho]; exact h

theorem Block.AtResetResults.advanceN {s : State} (h : s.block.AtResetResults) (hno : s.NoSolveScheduled) (n : Nat) :
    (advanceN n s).block.AtResetResults :=
  (advanceN_induction (P := fun t => t.block.AtResetResults ∧ t.NoSolveScheduled)
    (fun _ ⟨ht, hnot⟩ => ⟨ht.advance hnot, hnot.advance⟩) n s ⟨h, hno⟩).1

/-- Settles O3: the reset leaves reset results, and what is scheduled after it holds no `SOLVE`. -/
theorem resetAbandonsRunningSolve : Obligations.ResetAbandonsRunningSolve := by
  intro s es _ hs hes n
  have hblock : (advance s).block.AtResetResults := by
    rw [advance_block_of_reset hs]
    exact Block.reset_atResetResults _ _
  have hno : (advance s).NoSolveScheduled := by
    unfold State.NoSolveScheduled
    rw [advance_schedule, hs, advance_params]
    exact hes
  obtain ⟨hidle, hdone, hint, hnum, hden⟩ := hblock.advanceN hno n
  exact ⟨hidle, hdone, hint, hnum, hden⟩

/-! ### A `SOLVE` right after reset (R233) -/

/-- A `SOLVE` met while idle starts a solve. -/
theorem advance_solve_idle {s : State} (hidle : s.block.status.busy = false) (hi : BitVec 28) (rest : List Event) :
    advance (s.withSchedule (.bus (encodeAccess s.params (.solve hi)) :: rest)) = (startSolve s).withSchedule rest :=
  advance_access (exec_commandInstr_idle (by exact hidle) 1#4 hi)

/-- The inputs captured right after a reset fail the first check of `Solve` (42_solver.md R150). -/
theorem complete_startSolve_resetEvent (s : State) :
    complete (startSolve (resetEvent s)) = completeError .targetZero (startSolve (resetEvent s)) :=
  complete_error (solve_targetZero rfl)

theorem advanceN_reset_solve_engine (s : State) (hi : BitVec 28) (rest : List Event) :
    advanceN 3 (s.withSchedule (.reset :: .bus (encodeAccess s.params (.solve hi)) :: .engine :: rest))
      = (completeError .targetZero (startSolve (resetEvent s))).withSchedule rest := by
  rw [advanceN_succ, advance_reset, advanceN_two, ← resetEvent_params s, advance_solve_idle rfl,
    advance_engine_busy rfl, complete_startSolve_resetEvent]

/-- Settles O37: the three steps end in the report of `TARGET_ZERO`, which leaves the reset results. -/
theorem solveAfterResetReportsTargetZero : Obligations.SolveAfterResetReportsTargetZero := by
  intro s hi rest hs
  have hword : (Status.rejected .targetZero).word = 0x14#32 := by decide
  rw [← s.withSchedule_self, hs, advanceN_reset_solve_engine]
  exact ⟨hword, rfl, rfl, rfl⟩

end Sys2Proof.Machine
